-- ==== Sys2Proof/Word.lean ====
section
/-! DEFINITION. The word types of the machine: `00_scope.md` R5 (XLEN = 32, 5-bit register numbers), R8 (every value is a
bit vector of a stated width) and `20_memory.md` R40 (the addressable unit is the 8-bit byte). Addition, subtraction, the bitwise
operators and the shifts of R11 are those of `BitVec`: modulo 2^32 and total. -/

namespace Sys2Proof

/-- A 32-bit value: a register, the pc, an address, an instruction word (R5, R8). -/
abbrev Word := BitVec 32

/-- One byte of memory (R40). -/
abbrev Byte := BitVec 8

/-- A register number as an instruction names it: five bits, all 32 values legal (R5, R20, R86). -/
abbrev Reg := BitVec 5

/-- How many byte addresses the address space has (R40). -/
abbrev addressSpace : Nat := 2 ^ 32

end Sys2Proof
end

