-- ==== Sys2Proof/Syntax.lean ====
section
/-! DEFINITION. The 37 instructions of `00_scope.md` R1, one constructor per row of the opcode table, with the fields that
`30_encoding.md` R86 says `Decode` returns: register numbers of 5 bits, and `imm` or `shamt` already assembled to 32 bits by rules
R79 to R84 (so `imm` of `lui` and `auipc` is `inst[31:12] ++ 0^12`, R83). Which operand values an encoding admits is
`WellFormed.lean`. -/

namespace Sys2Proof

/-- The instruction set. -/
inductive Instr where
  -- type R (`40_r_type.md`)
  | add (rd rs1 rs2 : Reg)
  | sub (rd rs1 rs2 : Reg)
  | slt (rd rs1 rs2 : Reg)
  | sltu (rd rs1 rs2 : Reg)
  | and (rd rs1 rs2 : Reg)
  | or (rd rs1 rs2 : Reg)
  | xor (rd rs1 rs2 : Reg)
  | sll (rd rs1 rs2 : Reg)
  | srl (rd rs1 rs2 : Reg)
  | sra (rd rs1 rs2 : Reg)
  -- type I (`41_i_type.md`)
  | jalr (rd rs1 : Reg) (imm : Word)
  | lw (rd rs1 : Reg) (imm : Word)
  | lh (rd rs1 : Reg) (imm : Word)
  | lhu (rd rs1 : Reg) (imm : Word)
  | lb (rd rs1 : Reg) (imm : Word)
  | lbu (rd rs1 : Reg) (imm : Word)
  | addi (rd rs1 : Reg) (imm : Word)
  | slti (rd rs1 : Reg) (imm : Word)
  | sltiu (rd rs1 : Reg) (imm : Word)
  | andi (rd rs1 : Reg) (imm : Word)
  | ori (rd rs1 : Reg) (imm : Word)
  | xori (rd rs1 : Reg) (imm : Word)
  | slli (rd rs1 : Reg) (shamt : Word)
  | srli (rd rs1 : Reg) (shamt : Word)
  | srai (rd rs1 : Reg) (shamt : Word)
  -- type S (`42_s_type.md`): the register stored is `rs2`, the base `rs1`
  | sw (rs2 rs1 : Reg) (imm : Word)
  | sh (rs2 rs1 : Reg) (imm : Word)
  | sb (rs2 rs1 : Reg) (imm : Word)
  -- type U (`43_u_type.md`)
  | lui (rd : Reg) (imm : Word)
  | auipc (rd : Reg) (imm : Word)
  -- type B (`44_b_type.md`)
  | beq (rs1 rs2 : Reg) (imm : Word)
  | bne (rs1 rs2 : Reg) (imm : Word)
  | blt (rs1 rs2 : Reg) (imm : Word)
  | bge (rs1 rs2 : Reg) (imm : Word)
  | bltu (rs1 rs2 : Reg) (imm : Word)
  | bgeu (rs1 rs2 : Reg) (imm : Word)
  -- type J (`45_j_type.md`)
  | jal (rd : Reg) (imm : Word)
  deriving DecidableEq, Repr

end Sys2Proof
end

