-- ==== Sys2Proof/WellFormed.lean ====
section
/-! DEFINITION. Which operand values an encoding admits: the ranges of `30_encoding.md` R91 (from R79 to R84), read on the
assembled 32-bit value. Register numbers are never a reason for ill-formedness (R86). -/

namespace Sys2Proof

/-- The I- and S-immediates: -2048 .. 2047 (R79, R81, R91). -/
def fitsImm12 (imm : Word) : Bool := decide (-2048 ≤ imm.toInt ∧ imm.toInt ≤ 2047)

/-- The shift amount: 0 .. 31 (R80, R91). -/
def fitsShamt (shamt : Word) : Bool := decide (shamt.toNat < 32)

/-- The U-immediate: its low 12 bits are zero, so it is some `uimm` in 0 .. 0xfffff shifted left by 12 (R83, R91). -/
def fitsUpper (imm : Word) : Bool := decide (imm.toNat % 4096 = 0)

/-- The B-immediate: even, -4096 .. 4094 (R82, R91). -/
def fitsBranch (imm : Word) : Bool := decide (imm.toNat % 2 = 0 ∧ -4096 ≤ imm.toInt ∧ imm.toInt ≤ 4094)

/-- The J-immediate: even, -1048576 .. 1048574 (R84, R91). -/
def fitsJump (imm : Word) : Bool := decide (imm.toNat % 2 = 0 ∧ -1048576 ≤ imm.toInt ∧ imm.toInt ≤ 1048574)

/-- The instruction has an encoding: every operand is in the range R91 gives it. -/
def Instr.wellFormed : Instr → Bool
  | .add _ _ _ => true
  | .sub _ _ _ => true
  | .slt _ _ _ => true
  | .sltu _ _ _ => true
  | .and _ _ _ => true
  | .or _ _ _ => true
  | .xor _ _ _ => true
  | .sll _ _ _ => true
  | .srl _ _ _ => true
  | .sra _ _ _ => true
  | .jalr _ _ imm => fitsImm12 imm
  | .lw _ _ imm => fitsImm12 imm
  | .lh _ _ imm => fitsImm12 imm
  | .lhu _ _ imm => fitsImm12 imm
  | .lb _ _ imm => fitsImm12 imm
  | .lbu _ _ imm => fitsImm12 imm
  | .addi _ _ imm => fitsImm12 imm
  | .slti _ _ imm => fitsImm12 imm
  | .sltiu _ _ imm => fitsImm12 imm
  | .andi _ _ imm => fitsImm12 imm
  | .ori _ _ imm => fitsImm12 imm
  | .xori _ _ imm => fitsImm12 imm
  | .slli _ _ shamt => fitsShamt shamt
  | .srli _ _ shamt => fitsShamt shamt
  | .srai _ _ shamt => fitsShamt shamt
  | .sw _ _ imm => fitsImm12 imm
  | .sh _ _ imm => fitsImm12 imm
  | .sb _ _ imm => fitsImm12 imm
  | .lui _ imm => fitsUpper imm
  | .auipc _ imm => fitsUpper imm
  | .beq _ _ imm => fitsBranch imm
  | .bne _ _ imm => fitsBranch imm
  | .blt _ _ imm => fitsBranch imm
  | .bge _ _ imm => fitsBranch imm
  | .bltu _ _ imm => fitsBranch imm
  | .bgeu _ _ imm => fitsBranch imm
  | .jal _ imm => fitsJump imm

end Sys2Proof
end

