-- ==== Sys2Proof/Decode.lean ====
section
/-! DEFINITION. The encoding of the 37 instructions: the fields of a word (`30_encoding.md` R71), the immediates (R79 to R84), the
opcode map as a table of match and mask (R85), the total decoder (R86), and the encoder written from the formats R72 to R78.
Bits are numbered as R7 does, concatenation is R9's `++`. -/

namespace Sys2Proof

/-! ## Fields (R71) -/

/-- `opcode = inst[6:0]`. -/
def opcodeField (w : Word) : BitVec 7 := w.extractLsb' 0 7

/-- `rd = inst[11:7]`. -/
def rdField (w : Word) : Reg := w.extractLsb' 7 5

/-- `funct3 = inst[14:12]`. -/
def funct3Field (w : Word) : BitVec 3 := w.extractLsb' 12 3

/-- `rs1 = inst[19:15]`. -/
def rs1Field (w : Word) : Reg := w.extractLsb' 15 5

/-- `rs2 = inst[24:20]`. -/
def rs2Field (w : Word) : Reg := w.extractLsb' 20 5

/-- `funct7 = inst[31:25]`. -/
def funct7Field (w : Word) : BitVec 7 := w.extractLsb' 25 7

/-! ## Immediates (R79 to R84) -/

/-- I-immediate, `sext_32(inst[31:20])` (R79). -/
def immI (w : Word) : Word := (w.extractLsb' 20 12).signExtend 32

/-- Shift amount, `zext_32(inst[24:20])` (R80). -/
def immShamt (w : Word) : Word := (w.extractLsb' 20 5).setWidth 32

/-- S-immediate, `sext_32(inst[31:25] ++ inst[11:7])` (R81). -/
def immS (w : Word) : Word := (w.extractLsb' 25 7 ++ w.extractLsb' 7 5 : BitVec 12).signExtend 32

/-- B-immediate, `sext_32(inst[31] ++ inst[7] ++ inst[30:25] ++ inst[11:8] ++ 0b0)` (R82). -/
def immB (w : Word) : Word :=
  (w.extractLsb' 31 1 ++ w.extractLsb' 7 1 ++ w.extractLsb' 25 6 ++ w.extractLsb' 8 4 ++ 0#1 : BitVec 13).signExtend 32

/-- U-immediate, `inst[31:12] ++ 0^12` (R83). -/
def immU (w : Word) : Word := w.extractLsb' 12 20 ++ 0#12

/-- J-immediate, `sext_32(inst[31] ++ inst[19:12] ++ inst[20] ++ inst[30:21] ++ 0b0)` (R84). -/
def immJ (w : Word) : Word :=
  (w.extractLsb' 31 1 ++ w.extractLsb' 12 8 ++ w.extractLsb' 20 1 ++ w.extractLsb' 21 10 ++ 0#1 : BitVec 21).signExtend 32

/-! ## The opcode map as data (R85) -/

/-- One row of R85's full map: a word is the row's instruction exactly when `w & mask == pattern`. -/
structure OpcodeRow where
  mnemonic : String
  /-- the table's column `match` -/
  pattern : Word
  mask : Word
  deriving DecidableEq, Repr

/-- The rows of groups OP and OP-IMM with `funct7` in the mask (formats R and I-shift). -/
def opcodeTableShiftAndR : List OpcodeRow :=
  [ ⟨"add", 0x00000033, 0xfe00707f⟩, ⟨"sub", 0x40000033, 0xfe00707f⟩, ⟨"slt", 0x00002033, 0xfe00707f⟩,
    ⟨"sltu", 0x00003033, 0xfe00707f⟩, ⟨"and", 0x00007033, 0xfe00707f⟩, ⟨"or", 0x00006033, 0xfe00707f⟩,
    ⟨"xor", 0x00004033, 0xfe00707f⟩, ⟨"sll", 0x00001033, 0xfe00707f⟩, ⟨"srl", 0x00005033, 0xfe00707f⟩,
    ⟨"sra", 0x40005033, 0xfe00707f⟩, ⟨"slli", 0x00001013, 0xfe00707f⟩, ⟨"srli", 0x00005013, 0xfe00707f⟩,
    ⟨"srai", 0x40005013, 0xfe00707f⟩ ]

/-- The rows of formats I, S and B, selected by `funct3` and `opcode`. -/
def opcodeTableISB : List OpcodeRow :=
  [ ⟨"jalr", 0x00000067, 0x0000707f⟩, ⟨"lw", 0x00002003, 0x0000707f⟩, ⟨"lh", 0x00001003, 0x0000707f⟩,
    ⟨"lhu", 0x00005003, 0x0000707f⟩, ⟨"lb", 0x00000003, 0x0000707f⟩, ⟨"lbu", 0x00004003, 0x0000707f⟩,
    ⟨"addi", 0x00000013, 0x0000707f⟩, ⟨"slti", 0x00002013, 0x0000707f⟩, ⟨"sltiu", 0x00003013, 0x0000707f⟩,
    ⟨"andi", 0x00007013, 0x0000707f⟩, ⟨"ori", 0x00006013, 0x0000707f⟩, ⟨"xori", 0x00004013, 0x0000707f⟩,
    ⟨"sw", 0x00002023, 0x0000707f⟩, ⟨"sh", 0x00001023, 0x0000707f⟩, ⟨"sb", 0x00000023, 0x0000707f⟩,
    ⟨"beq", 0x00000063, 0x0000707f⟩, ⟨"bne", 0x00001063, 0x0000707f⟩, ⟨"blt", 0x00004063, 0x0000707f⟩,
    ⟨"bge", 0x00005063, 0x0000707f⟩, ⟨"bltu", 0x00006063, 0x0000707f⟩, ⟨"bgeu", 0x00007063, 0x0000707f⟩ ]

/-- The rows of formats U and J, selected by `opcode` alone. -/
def opcodeTableUJ : List OpcodeRow :=
  [ ⟨"lui", 0x00000037, 0x0000007f⟩, ⟨"auipc", 0x00000017, 0x0000007f⟩, ⟨"jal", 0x0000006f, 0x0000007f⟩ ]

/-- The 37 rows of R85. `decode` is written from R86, not from this list. -/
def opcodeTable : List OpcodeRow := opcodeTableShiftAndR ++ opcodeTableISB ++ opcodeTableUJ

/-- The instruction's name in the opcode table. -/
def Instr.mnemonic : Instr → String
  | .add _ _ _ => "add"
  | .sub _ _ _ => "sub"
  | .slt _ _ _ => "slt"
  | .sltu _ _ _ => "sltu"
  | .and _ _ _ => "and"
  | .or _ _ _ => "or"
  | .xor _ _ _ => "xor"
  | .sll _ _ _ => "sll"
  | .srl _ _ _ => "srl"
  | .sra _ _ _ => "sra"
  | .jalr _ _ _ => "jalr"
  | .lw _ _ _ => "lw"
  | .lh _ _ _ => "lh"
  | .lhu _ _ _ => "lhu"
  | .lb _ _ _ => "lb"
  | .lbu _ _ _ => "lbu"
  | .addi _ _ _ => "addi"
  | .slti _ _ _ => "slti"
  | .sltiu _ _ _ => "sltiu"
  | .andi _ _ _ => "andi"
  | .ori _ _ _ => "ori"
  | .xori _ _ _ => "xori"
  | .slli _ _ _ => "slli"
  | .srli _ _ _ => "srli"
  | .srai _ _ _ => "srai"
  | .sw _ _ _ => "sw"
  | .sh _ _ _ => "sh"
  | .sb _ _ _ => "sb"
  | .lui _ _ => "lui"
  | .auipc _ _ => "auipc"
  | .beq _ _ _ => "beq"
  | .bne _ _ _ => "bne"
  | .blt _ _ _ => "blt"
  | .bge _ _ _ => "bge"
  | .bltu _ _ _ => "bltu"
  | .bgeu _ _ _ => "bgeu"
  | .jal _ _ => "jal"

/-! ## The decoder (R86) -/

/-- Why a decoder answers no instruction. Both are safe: nothing is executed. -/
inductive DecodeError where
  /-- R86, R87: the word matches no row of the opcode map. Raised by `decode`; the step turns it into the exception
  `IllegalInstruction(w)`. -/
  | illegalInstruction (w : Word)
  /-- Fewer than the four bytes every instruction has (R70) are left. Raised by `decodeBytes` only; a fetch always reads four. -/
  | tooFewBytes (have_ : Nat)
  deriving DecidableEq, Repr

/-- `op = 0110011`: the pair `(f7, f3)` selects one of the ten type R instructions (R86). -/
def decodeOp (w : Word) : Option Instr :=
  let rd := rdField w; let rs1 := rs1Field w; let rs2 := rs2Field w
  if funct7Field w = 0b0000000#7 then
    match funct3Field w with
    | 0b000#3 => some (.add rd rs1 rs2)
    | 0b010#3 => some (.slt rd rs1 rs2)
    | 0b011#3 => some (.sltu rd rs1 rs2)
    | 0b111#3 => some (.and rd rs1 rs2)
    | 0b110#3 => some (.or rd rs1 rs2)
    | 0b100#3 => some (.xor rd rs1 rs2)
    | 0b001#3 => some (.sll rd rs1 rs2)
    | 0b101#3 => some (.srl rd rs1 rs2)
    | _ => none
  else if funct7Field w = 0b0100000#7 then
    match funct3Field w with
    | 0b000#3 => some (.sub rd rs1 rs2)
    | 0b101#3 => some (.sra rd rs1 rs2)
    | _ => none
  else none

/-- `op = 0010011`: register-immediate arithmetic, and the shifts, whose upper seven bits take part in the selection (R74, R86). -/
def decodeOpImm (w : Word) : Option Instr :=
  let rd := rdField w; let rs1 := rs1Field w; let imm := immI w; let shamt := immShamt w
  match funct3Field w with
  | 0b000#3 => some (.addi rd rs1 imm)
  | 0b010#3 => some (.slti rd rs1 imm)
  | 0b011#3 => some (.sltiu rd rs1 imm)
  | 0b111#3 => some (.andi rd rs1 imm)
  | 0b110#3 => some (.ori rd rs1 imm)
  | 0b100#3 => some (.xori rd rs1 imm)
  | 0b001#3 => if funct7Field w = 0b0000000#7 then some (.slli rd rs1 shamt) else none
  | 0b101#3 =>
    if funct7Field w = 0b0000000#7 then some (.srli rd rs1 shamt)
    else if funct7Field w = 0b0100000#7 then some (.srai rd rs1 shamt)
    else none
  | _ => none

/-- `op = 0000011`: the five loads (R86). -/
def decodeLoad (w : Word) : Option Instr :=
  let rd := rdField w; let rs1 := rs1Field w; let imm := immI w
  match funct3Field w with
  | 0b010#3 => some (.lw rd rs1 imm)
  | 0b001#3 => some (.lh rd rs1 imm)
  | 0b101#3 => some (.lhu rd rs1 imm)
  | 0b000#3 => some (.lb rd rs1 imm)
  | 0b100#3 => some (.lbu rd rs1 imm)
  | _ => none

/-- `op = 0100011`: the three stores, `sb = 000`, `sh = 001`, `sw = 010` (R86; `90_conflicts.md` C2). -/
def decodeStore (w : Word) : Option Instr :=
  let rs2 := rs2Field w; let rs1 := rs1Field w; let imm := immS w
  match funct3Field w with
  | 0b010#3 => some (.sw rs2 rs1 imm)
  | 0b001#3 => some (.sh rs2 rs1 imm)
  | 0b000#3 => some (.sb rs2 rs1 imm)
  | _ => none

/-- `op = 1100011`: the six branches (R86). -/
def decodeBranch (w : Word) : Option Instr :=
  let rs1 := rs1Field w; let rs2 := rs2Field w; let imm := immB w
  match funct3Field w with
  | 0b000#3 => some (.beq rs1 rs2 imm)
  | 0b001#3 => some (.bne rs1 rs2 imm)
  | 0b100#3 => some (.blt rs1 rs2 imm)
  | 0b101#3 => some (.bge rs1 rs2 imm)
  | 0b110#3 => some (.bltu rs1 rs2 imm)
  | 0b111#3 => some (.bgeu rs1 rs2 imm)
  | _ => none

/-- `op = 1100111`: `jalr`, which needs `funct3 = 000` (R86). -/
def decodeJalr (w : Word) : Option Instr :=
  if funct3Field w = 0b000#3 then some (.jalr (rdField w) (rs1Field w) (immI w)) else none

/-- The instruction a word stands for, if it is one of the 37 (R85's nine groups, R86). -/
def decodeGroup (w : Word) : Option Instr :=
  match opcodeField w with
  | 0b0110011#7 => decodeOp w
  | 0b0010011#7 => decodeOpImm w
  | 0b0000011#7 => decodeLoad w
  | 0b1100111#7 => decodeJalr w
  | 0b0100011#7 => decodeStore w
  | 0b0110111#7 => some (.lui (rdField w) (immU w))
  | 0b0010111#7 => some (.auipc (rdField w) (immU w))
  | 0b1100011#7 => decodeBranch w
  | 0b1101111#7 => some (.jal (rdField w) (immJ w))
  | _ => none

/-- `Decode(w)` of R86, total on all 2^32 words: an illegal word is refused by name, with the word. -/
def decode (w : Word) : Except DecodeError Instr :=
  match decodeGroup w with
  | some i => .ok i
  | none => .error (.illegalInstruction w)

/-- The little-endian word of four bytes, lowest address first (`20_memory.md` R42, R43). -/
def wordOfBytes (b0 b1 b2 b3 : Byte) : Word := b3 ++ b2 ++ b1 ++ b0

/-- The four bytes of a word as they lie in memory, lowest address first (R42, R43). -/
def bytesOfWord (w : Word) : List Byte :=
  [w.extractLsb' 0 8, w.extractLsb' 8 8, w.extractLsb' 16 8, w.extractLsb' 24 8]

/-- The decoder on any bytes: the instruction in the first four and the bytes after it (R70: one length). -/
def decodeBytes : List Byte → Except DecodeError (Instr × List Byte)
  | b0 :: b1 :: b2 :: b3 :: rest =>
    match decode (wordOfBytes b0 b1 b2 b3) with
    | .ok i => .ok (i, rest)
    | .error e => .error e
  | short => .error (.tooFewBytes short.length)

/-! ## The encoder (formats R72 to R78) -/

/-- Format R (R72), and the shift sub-format of I with `shamt` in the place of `rs2` (R74). -/
def encodeR (funct7 : BitVec 7) (rs2 rs1 : BitVec 5) (funct3 : BitVec 3) (rd : BitVec 5) (opcode : BitVec 7) : Word :=
  funct7 ++ rs2 ++ rs1 ++ funct3 ++ rd ++ opcode

/-- Format I (R73). -/
def encodeI (imm : Word) (rs1 : Reg) (funct3 : BitVec 3) (rd : Reg) (opcode : BitVec 7) : Word :=
  imm.extractLsb' 0 12 ++ rs1 ++ funct3 ++ rd ++ opcode

/-- Format S (R75). -/
def encodeS (imm : Word) (rs2 rs1 : Reg) (funct3 : BitVec 3) (opcode : BitVec 7) : Word :=
  imm.extractLsb' 5 7 ++ rs2 ++ rs1 ++ funct3 ++ imm.extractLsb' 0 5 ++ opcode

/-- Format B (R76). -/
def encodeB (imm : Word) (rs2 rs1 : Reg) (funct3 : BitVec 3) (opcode : BitVec 7) : Word :=
  imm.extractLsb' 12 1 ++ imm.extractLsb' 5 6 ++ rs2 ++ rs1 ++ funct3 ++ imm.extractLsb' 1 4 ++ imm.extractLsb' 11 1 ++ opcode

/-- Format U (R77). -/
def encodeU (imm : Word) (rd : Reg) (opcode : BitVec 7) : Word :=
  imm.extractLsb' 12 20 ++ rd ++ opcode

/-- Format J (R78). -/
def encodeJ (imm : Word) (rd : Reg) (opcode : BitVec 7) : Word :=
  imm.extractLsb' 20 1 ++ imm.extractLsb' 1 10 ++ imm.extractLsb' 11 1 ++ imm.extractLsb' 12 8 ++ rd ++ opcode

/-- The word of a well-formed instruction (R85's rows). -/
def encode : Instr → Word
  | .add rd rs1 rs2 => encodeR 0b0000000#7 rs2 rs1 0b000#3 rd 0b0110011#7
  | .sub rd rs1 rs2 => encodeR 0b0100000#7 rs2 rs1 0b000#3 rd 0b0110011#7
  | .slt rd rs1 rs2 => encodeR 0b0000000#7 rs2 rs1 0b010#3 rd 0b0110011#7
  | .sltu rd rs1 rs2 => encodeR 0b0000000#7 rs2 rs1 0b011#3 rd 0b0110011#7
  | .and rd rs1 rs2 => encodeR 0b0000000#7 rs2 rs1 0b111#3 rd 0b0110011#7
  | .or rd rs1 rs2 => encodeR 0b0000000#7 rs2 rs1 0b110#3 rd 0b0110011#7
  | .xor rd rs1 rs2 => encodeR 0b0000000#7 rs2 rs1 0b100#3 rd 0b0110011#7
  | .sll rd rs1 rs2 => encodeR 0b0000000#7 rs2 rs1 0b001#3 rd 0b0110011#7
  | .srl rd rs1 rs2 => encodeR 0b0000000#7 rs2 rs1 0b101#3 rd 0b0110011#7
  | .sra rd rs1 rs2 => encodeR 0b0100000#7 rs2 rs1 0b101#3 rd 0b0110011#7
  | .jalr rd rs1 imm => encodeI imm rs1 0b000#3 rd 0b1100111#7
  | .lw rd rs1 imm => encodeI imm rs1 0b010#3 rd 0b0000011#7
  | .lh rd rs1 imm => encodeI imm rs1 0b001#3 rd 0b0000011#7
  | .lhu rd rs1 imm => encodeI imm rs1 0b101#3 rd 0b0000011#7
  | .lb rd rs1 imm => encodeI imm rs1 0b000#3 rd 0b0000011#7
  | .lbu rd rs1 imm => encodeI imm rs1 0b100#3 rd 0b0000011#7
  | .addi rd rs1 imm => encodeI imm rs1 0b000#3 rd 0b0010011#7
  | .slti rd rs1 imm => encodeI imm rs1 0b010#3 rd 0b0010011#7
  | .sltiu rd rs1 imm => encodeI imm rs1 0b011#3 rd 0b0010011#7
  | .andi rd rs1 imm => encodeI imm rs1 0b111#3 rd 0b0010011#7
  | .ori rd rs1 imm => encodeI imm rs1 0b110#3 rd 0b0010011#7
  | .xori rd rs1 imm => encodeI imm rs1 0b100#3 rd 0b0010011#7
  | .slli rd rs1 shamt => encodeR 0b0000000#7 (shamt.extractLsb' 0 5) rs1 0b001#3 rd 0b0010011#7
  | .srli rd rs1 shamt => encodeR 0b0000000#7 (shamt.extractLsb' 0 5) rs1 0b101#3 rd 0b0010011#7
  | .srai rd rs1 shamt => encodeR 0b0100000#7 (shamt.extractLsb' 0 5) rs1 0b101#3 rd 0b0010011#7
  | .sw rs2 rs1 imm => encodeS imm rs2 rs1 0b010#3 0b0100011#7
  | .sh rs2 rs1 imm => encodeS imm rs2 rs1 0b001#3 0b0100011#7
  | .sb rs2 rs1 imm => encodeS imm rs2 rs1 0b000#3 0b0100011#7
  | .lui rd imm => encodeU imm rd 0b0110111#7
  | .auipc rd imm => encodeU imm rd 0b0010111#7
  | .beq rs1 rs2 imm => encodeB imm rs2 rs1 0b000#3 0b1100011#7
  | .bne rs1 rs2 imm => encodeB imm rs2 rs1 0b001#3 0b1100011#7
  | .blt rs1 rs2 imm => encodeB imm rs2 rs1 0b100#3 0b1100011#7
  | .bge rs1 rs2 imm => encodeB imm rs2 rs1 0b101#3 0b1100011#7
  | .bltu rs1 rs2 imm => encodeB imm rs2 rs1 0b110#3 0b1100011#7
  | .bgeu rs1 rs2 imm => encodeB imm rs2 rs1 0b111#3 0b1100011#7
  | .jal rd imm => encodeJ imm rd 0b1101111#7

/-! ## The opcode table's own numbering -/

/-- The word whose `nbits` low bits are those of `w` and whose other bits are zero. -/
def tableWord (nbits w : Nat) : Word := BitVec.ofNat 32 (w % 2 ^ nbits)

/-- The instruction the decoder reads from an instruction whose bits are `w`, `nbits` of them given by the table: the bytes are laid
out as memory holds them and given to `decodeBytes`. -/
def decodeTableWord (nbits w : Nat) : Option Instr :=
  match decodeBytes (bytesOfWord (tableWord nbits w)) with
  | .ok (i, _) => some i
  | .error _ => none

end Sys2Proof
end

