-- ==== Sys2Proof/Config.lean ====
section
/-! DEFINITION. What is fixed for a run: the open parameters of `00_scope.md` R6 (`92_eei_decisions.md` D10, D11, D12, D15) as
plain data, and the values of them that `State.reset` is built from. The spec leaves every one of those values open; each is a
DESIGN CHOICE of this model with a row in `notes/assumptions/`. No definition of a step reads a value of this file: a step reads
the parameters of the state it is given. -/

namespace Sys2Proof

/-- What an access wants to do with a byte: `r`, `w` or `x` of `20_memory.md` R41. -/
inductive AccessKind where
  | load
  | store
  | fetch
  deriving DecidableEq, Repr

/-- A permission set of `MEM_MAP`: the six subsets of `{r, w, x}` that do not hold both `w` and `x` (R41, R54). A map that gives a
byte both cannot be written down, which is the refusal at configuration of `93_implementation_defined.md` U9. -/
inductive Perm where
  /-- `{}`: no memory exists there (R41) -/
  | none
  /-- `{r}` -/
  | r
  /-- `{w}` -/
  | w
  /-- `{x}` -/
  | x
  /-- `{r, w}` -/
  | rw
  /-- `{r, x}` -/
  | rx
  deriving DecidableEq, Repr

/-- The bytes `base`, ..., `base + size - 1` with one permission set. -/
structure Region where
  base : Nat
  size : Nat
  perm : Perm
  deriving DecidableEq, Repr

/-- The parameters a step reads (R6): `MEM_MAP` as a list of regions, the first that holds an address deciding, and `END_PC`.
Every `MEM_MAP` of R41 is such a list, since the address space is finite. See log entries 1 and 5. -/
structure Platform where
  memMap : List Region
  endPc : Word
  deriving DecidableEq, Repr

/-- The values of `x1` to `x31`, in this order; `x0` is not stored (`10_state.md` R21). -/
abbrev RegFile := Vector Word 31

/-- What a byte of memory reads as that the memory's list does not name: DESIGN CHOICE, unsafe for claims about `State.reset`
only (log entry 7). -/
def Config.unlistedByte : Byte := 0#8

/-- `RESET_PC` of `State.reset`: the address the programs of `95_test_vectors.md` Part 3 are loaded at. DESIGN CHOICE, unsafe (log
entry 2). -/
def Config.resetPc : Word := 0x00001000#32

/-- `END_PC` of `State.reset`: zero, which is also what `ra` holds there, the launcher's usual `ra = END_PC`
(`70_reset_and_hazards.md` R241). DESIGN CHOICE, unsafe (log entry 3). -/
def Config.endPc : Word := 0x00000000#32

/-- `MEM_MAP` of `State.reset`: the map of `95_test_vectors.md` section 2.12, code `{r, x}` at 0x1000 .. 0x1fff and data `{r, w}` at
0x2000 .. 0x2fff. DESIGN CHOICE, unsafe (log entry 4). -/
def Config.memMap : List Region := [⟨0x1000, 0x1000, .rx⟩, ⟨0x2000, 0x1000, .rw⟩]

/-- `INIT_REGS` of `State.reset`: all zero. DESIGN CHOICE, unsafe (log entry 6). -/
def Config.initRegs : RegFile := Vector.replicate 31 0#32

/-- The parameters a step from `State.reset` reads. -/
def Config.platform : Platform := ⟨Config.memMap, Config.endPc⟩

end Sys2Proof
end

