-- ==== Sys2Proof/Machine/State.lean ====
section
/-! DEFINITION. The whole state of the machine (`10_state.md`: "32 general registers, the pc, the memory, and the machine status"),
the reasons a step can stop, and the state after reset. State is plain data. -/

namespace Sys2Proof.Machine

/-- The seven synchronous exceptions (`60_exceptions.md` R200). There is no other. -/
inductive Exception where
  /-- a taken branch, `jal` or `jalr` to a target that is not a multiple of 4, or a fetch at such a pc -/
  | instructionAddressMisaligned
  /-- a fetch of which at least one byte lacks `x` -/
  | instructionAccessFault
  /-- the fetched word is none of the 37 instructions -/
  | illegalInstruction
  /-- `lw` not at a multiple of 4, `lh` or `lhu` at an odd address -/
  | loadAddressMisaligned
  /-- a load of which at least one byte lacks `r` -/
  | loadAccessFault
  /-- `sw` not at a multiple of 4, `sh` at an odd address -/
  | storeAddressMisaligned
  /-- a store of which at least one byte lacks `w` -/
  | storeAccessFault
  deriving DecidableEq, Repr

/-- What a check that fails hands to the raise: the exception and its `info` (`00_scope.md` R14, R200). -/
structure Raised where
  exception : Exception
  info : Word
  deriving DecidableEq, Repr

/-- The machine status (R31): `Running`, `Halted`, or `Faulted(exception, pc, info)` with the address of the instruction that raised
(R201). -/
inductive Status where
  | running
  | halted
  | faulted (exception : Exception) (pc info : Word)
  deriving DecidableEq, Repr

/-- Memory contents: (address, byte) pairs in one canonical form (`Memory.wf`); an address it does not name reads as
`Config.unlistedByte`. -/
abbrev Memory := List Host.Cell

/-- The machine's state. `platform` holds the parameters `MEM_MAP` and `END_PC`, which no step changes (R41). -/
structure State where
  /-- `x1` to `x31` (R20); `x0` is hard-wired and not stored (R21) -/
  regs : RegFile
  /-- the program counter (R23) -/
  pc : Word
  /-- the memory (R29, R40) -/
  mem : Memory
  /-- the machine status (R31) -/
  status : Status
  /-- the parameters a step reads (`00_scope.md` R6) -/
  platform : Platform
  deriving DecidableEq, Repr

/-- Why no step exists. `Halted` and `Faulted` are absorbing (R31), "no later step exists" (`00_scope.md` R14): a stuck state, named.
No instruction answers either. -/
inductive Fault where
  /-- Raised by `step` alone, on a state whose status is `Halted`: the run has ended normally (R242). Safe: nothing is claimed of
  what a real processor does at `END_PC`. -/
  | stepAfterHalt
  /-- Raised by `step` alone, on a state whose status is `Faulted`: every exception is fatal (R201). Safe: nothing is claimed of
  what a real processor does after an exception. -/
  | stepAfterException
  deriving DecidableEq, Repr

/-- Why an instruction has no meaning. -/
inductive Refusal where
  /-- An arm of `exec` for an instruction that has no meaning yet; none is left, so nothing raises it. Safe. -/
  | notModelled (mnemonic : String)
  deriving DecidableEq, Repr

/-- The machine right after reset (R32 to R35, `70_reset_and_hazards.md` R240) at the parameter values of `Config.lean`: status
`Running`, nothing listed in memory. It holds no program: the program image is part of `INIT_MEM`, which a launcher supplies
(R241; log entry 10). -/
def State.reset : State where
  regs := Config.initRegs
  pc := Config.resetPc
  mem := []
  status := .running
  platform := Config.platform

end Sys2Proof.Machine
end

