-- ==== Sys2Proof/Machine/Ops.lean ====
section
/-! DEFINITION. The named operations every meaning is built from: register access (`00_scope.md` R12, `10_state.md` R21), memory
bytes and permissions (`20_memory.md` R41), the access primitives `MemRead`, `MemWrite` and `Fetch` (R42, R43), taking an exception
(R14, `60_exceptions.md` R201, R203), and the ways an instruction ends (R15, R24, R44). -/

namespace Sys2Proof.Machine

/-! ## Registers -/

/-- The place of a register other than `x0` in the file of `x1` to `x31`. -/
def regIndex (r : Reg) : Nat := r.toNat - 1

theorem regIndex_lt (r : Reg) : regIndex r < 31 := by
  have := r.isLt
  unfold regIndex
  omega

/-- `x[i]` (R12): register 0 reads as zero (R21). -/
def State.reg (s : State) (r : Reg) : Word :=
  if r = 0#5 then 0#32 else s.regs[regIndex r]'(regIndex_lt r)

/-- `x[i] <- v` (R12): a write to register 0 is discarded (R21). -/
def State.setReg (s : State) (r : Reg) (v : Word) : State :=
  if r = 0#5 then s else { s with regs := s.regs.set (regIndex r) v (regIndex_lt r) }

/-! ## The pc and the status -/

/-- `pc <- t` (R15). -/
def State.setPc (s : State) (t : Word) : State := { s with pc := t }

/-- `pc <- pc + 4`, modulo 2^32 (R24, R25). -/
def State.advance (s : State) : State := s.setPc (s.pc + 4#32)

/-- `raise E(info)` (R14, R201, R203): the status records the exception, the address of the raising instruction and `info`; no
register, no byte of memory and not the pc is written. There is no trap entry beyond this and no return from it (R206, R207). -/
def State.raise (s : State) (r : Raised) : State := { s with status := .faulted r.exception s.pc r.info }

/-- The run ends normally (`70_reset_and_hazards.md` R242): only the status changes. -/
def State.halt (s : State) : State := { s with status := .halted }

/-- The test of step (1) of R16: `pc == END_PC`. -/
def State.atEnd (s : State) : Bool := s.pc == s.platform.endPc

/-- The numeric identifiers R200 gives the exceptions; no register of the machine holds them. -/
def Exception.code : Exception → Nat
  | .instructionAddressMisaligned => 0
  | .instructionAccessFault => 1
  | .illegalInstruction => 2
  | .loadAddressMisaligned => 4
  | .loadAccessFault => 5
  | .storeAddressMisaligned => 6
  | .storeAccessFault => 7

/-! ## Bytes of memory -/

/-- The byte at an address (R29). -/
def Memory.read : Memory → Nat → Byte
  | [], _ => Config.unlistedByte
  | (k, b) :: m, a => if k = a then b else Memory.read m a

/-- The memory without an entry for `a`. -/
def Memory.erase (m : Memory) (a : Nat) : Memory := m.filter fun c => c.1 != a

/-- Put an entry in its place among rising addresses. -/
def Memory.insert : Memory → Nat → Byte → Memory
  | [], a, b => [(a, b)]
  | (k, c) :: m, a, b => if a < k then (a, b) :: (k, c) :: m else (k, c) :: Memory.insert m a b

/-- Change one byte, keeping the canonical form: writing what an unlisted address reads as removes the entry. -/
def Memory.write (m : Memory) (a : Nat) (b : Byte) : Memory :=
  if b = Config.unlistedByte then m.erase a else (m.erase a).insert a b

/-- The canonical form: addresses strictly rising and inside the address space, no entry equal to what an unlisted address reads
as. Memories in this form that read the same are equal. -/
abbrev Memory.wf (m : Memory) : Prop :=
  m.Pairwise (fun c d => c.1 < d.1) ∧ ∀ c ∈ m, c.2 ≠ Config.unlistedByte ∧ c.1 < addressSpace

/-! ## Permissions (`MEM_MAP`, R41) -/

/-- Whether a permission set holds the permission an access needs (R41). -/
def permits : Perm → AccessKind → Bool
  | .none, _ => false
  | .r, .load => true
  | .r, .store => false
  | .r, .fetch => false
  | .w, .load => false
  | .w, .store => true
  | .w, .fetch => false
  | .x, .load => false
  | .x, .store => false
  | .x, .fetch => true
  | .rw, .load => true
  | .rw, .store => true
  | .rw, .fetch => false
  | .rx, .load => true
  | .rx, .store => false
  | .rx, .fetch => true

/-- The permission set the first region that holds `a` gives it; none where no region does. -/
def regionPerm : List Region → Nat → Perm
  | [], _ => .none
  | r :: rs, a => if r.base ≤ a ∧ a < r.base + r.size then r.perm else regionPerm rs a

/-- `MEM_MAP(a)` (R41): nothing exists outside the 2^32 addresses (R40). -/
def permAt (p : Platform) (a : Nat) : Perm :=
  if a < addressSpace then regionPerm p.memMap a else .none

/-- Every byte `a`, ..., `a + n - 1` has the permission the access needs (R42, R43). -/
def allowed (p : Platform) (k : AccessKind) (a n : Nat) : Bool :=
  (List.range n).all fun i => permits (permAt p (a + i)) k

/-! ## The access primitives (R42, R43) -/

/-- The widths of R46. -/
inductive Width where
  | byte
  | half
  | word
  deriving DecidableEq, Repr

/-- 1, 2 or 4 bytes (R46). -/
def Width.bytes : Width → Nat
  | .byte => 1
  | .half => 2
  | .word => 4

/-- The little-endian value of an access, `mem[a + n - 1] ++ ... ++ mem[a]` (R42), with zeros above it up to 32 bits. -/
def readLE (m : Memory) (a : Nat) : Width → Word
  | .byte => (m.read a).setWidth 32
  | .half => (m.read (a + 1) ++ m.read a).setWidth 32
  | .word => m.read (a + 3) ++ m.read (a + 2) ++ m.read (a + 1) ++ m.read a

/-- `mem[a + i] <- v[8i+7 : 8i]` for `i` below `n` (R42). -/
def writeLE (m : Memory) (a : Nat) (v : Word) : Nat → Memory
  | 0 => m
  | n + 1 => (writeLE m a v n).write (a + n) (v.extractLsb' (8 * n) 8)

/-- `MemRead(addr, n)` (R42): alignment, then permission, then the value. -/
def memRead (s : State) (w : Width) (addr : Word) : Except Raised Word :=
  if addr.toNat % w.bytes ≠ 0 then .error ⟨.loadAddressMisaligned, addr⟩
  else if allowed s.platform .load addr.toNat w.bytes then .ok (readLE s.mem addr.toNat w)
  else .error ⟨.loadAccessFault, addr⟩

/-- `MemWrite(addr, n, v)` (R42): alignment, then permission, then all the bytes. The memory after it. -/
def memWrite (s : State) (w : Width) (addr v : Word) : Except Raised Memory :=
  if addr.toNat % w.bytes ≠ 0 then .error ⟨.storeAddressMisaligned, addr⟩
  else if allowed s.platform .store addr.toNat w.bytes then .ok (writeLE s.mem addr.toNat v w.bytes)
  else .error ⟨.storeAccessFault, addr⟩

/-- `Fetch(addr)` (R43): alignment, then permission, then the little-endian word. -/
def fetch (s : State) (addr : Word) : Except Raised Word :=
  if addr.toNat % 4 ≠ 0 then .error ⟨.instructionAddressMisaligned, addr⟩
  else if allowed s.platform .fetch addr.toNat 4 then .ok (readLE s.mem addr.toNat .word)
  else .error ⟨.instructionAccessFault, addr⟩

/-- Steps (2) and (3) of R16: the word at the pc and the instruction it is, or the exception (`30_encoding.md` R87). -/
def fetchInstr (s : State) : Except Raised Instr :=
  match fetch s s.pc with
  | .error r => .error r
  | .ok w =>
    match decode w with
    | .ok i => .ok i
    | .error _ => .error ⟨.illegalInstruction, w⟩

/-! ## Placing an instruction (the launcher's work, `70_reset_and_hazards.md` R241) -/

/-- An address rounded down to a multiple of 4, where code must stand (R44). -/
def alignDown (a : Word) : Word := a &&& ~~~3#32

/-- The parameters with the four bytes at `a` executable and `END_PC` elsewhere; each is left alone where it already is so. -/
def platformFor (p : Platform) (a : Word) : Platform where
  memMap := if allowed p .fetch a.toNat 4 then p.memMap else ⟨a.toNat, 4, .rx⟩ :: p.memMap
  endPc := if p.endPc = a then a + 4#32 else p.endPc

/-- The state in which the next step fetches the word `w`, stored little-endian at the pc. The pc of every reachable state is
aligned already (`10_state.md` R25). -/
def placeWord (s : State) (w : Word) : State :=
  { s with
    pc := alignDown s.pc
    status := .running
    mem := writeLE s.mem (alignDown s.pc).toNat w 4
    platform := platformFor s.platform (alignDown s.pc) }

/-! ## How an instruction ends -/

/-- The outcome of a meaning. -/
abbrev Result := Host.Outcome State Fault Refusal

/-- Take an exception: a next state, in which only the status has changed (R14, R201, R203). -/
def takeException (s : State) (r : Raised) : Result := .next (s.raise r)

/-- Write a result to `rd` and go on to the next instruction (R12, R24). -/
def finishWith (s : State) (rd : Reg) (v : Word) : Result := .next (s.setReg rd v).advance

/-- A control transfer to `t`, from the state `s` before the instruction to the state `s'` that holds its register result (R44): a
target that is not a multiple of 4 raises on this instruction, which then writes nothing. -/
def transferTo (s s' : State) (t : Word) : Result :=
  if t.toNat % 4 ≠ 0 then takeException s ⟨.instructionAddressMisaligned, t⟩ else .next (s'.setPc t)

/-- A load (R132 to R136): `ext` turns the bytes read into the register value. -/
def loadInto (s : State) (rd : Reg) (w : Width) (ext : Word → Word) (addr : Word) : Result :=
  match memRead s w addr with
  | .error r => takeException s r
  | .ok v => finishWith s rd (ext v)

/-- A store (R160): the low bytes of `v`. -/
def storeAt (s : State) (w : Width) (addr v : Word) : Result :=
  match memWrite s w addr v with
  | .error r => takeException s r
  | .ok m => .next { s with mem := m, pc := s.pc + 4#32 }

/-- A branch (`44_b_type.md` R180): taken, a control transfer relative to its own address; not taken, the next instruction. -/
def branchIf (s : State) (cond : Bool) (imm : Word) : Result :=
  if cond then transferTo s s (s.pc + imm) else .next s.advance

end Sys2Proof.Machine
end

