-- ==== Sys2Proof/Machine/Flags.lean ====
section
/-! DEFINITION. The machine has no flags and no condition codes (`10_state.md` R26). What stands here is what takes their place:
the comparisons whose result goes to a register or is consumed inside one branch (R26; `00_scope.md` R11). -/

namespace Sys2Proof.Machine

/-- `a <s b`: two's-complement comparison (R11). -/
def lessSigned (a b : Word) : Bool := a.slt b

/-- `a <u b`: unsigned comparison (R11). -/
def lessUnsigned (a b : Word) : Bool := a.ult b

/-- `a == b`: all 32 bits (R11). -/
def equalWords (a b : Word) : Bool := a == b

/-- A comparison used as a value: the 32-bit 1 or 0 (R11). -/
def truthValue (c : Bool) : Word := if c then 1#32 else 0#32

end Sys2Proof.Machine
end

