-- ==== Sys2Proof/Machine/Operands.lean ====
section
/-! DEFINITION. The operand forms: the one addressing mode `imm(rs1)` (`20_memory.md` R48), the shift amount in a register
(`40_r_type.md` R118), the extensions of a loaded value (`00_scope.md` R10), the target of `jalr` and the link value
(`41_i_type.md` R131). The immediates arrive assembled (`30_encoding.md` R79 to R84). -/

namespace Sys2Proof.Machine

/-- The effective address of a load, a store or the sum of `jalr`: `x[rs1] + imm` modulo 2^32 (R48). -/
def effectiveAddress (s : State) (rs1 : Reg) (imm : Word) : Word := s.reg rs1 + imm

/-- `unsigned(x[rs2][4:0])`: the low five bits; the others are ignored (R118 to R120). -/
def shiftAmount (v : Word) : Nat := (v.extractLsb' 0 5).toNat

/-- `sext_32` of the low byte (R135). -/
def signExtendByte (v : Word) : Word := (v.extractLsb' 0 8).signExtend 32

/-- `zext_32` of the low byte (R136). -/
def zeroExtendByte (v : Word) : Word := (v.extractLsb' 0 8).setWidth 32

/-- `sext_32` of the low half-word (R133). -/
def signExtendHalf (v : Word) : Word := (v.extractLsb' 0 16).signExtend 32

/-- `zext_32` of the low half-word (R134). -/
def zeroExtendHalf (v : Word) : Word := (v.extractLsb' 0 16).setWidth 32

/-- The target of `jalr`: `(x[rs1] + imm) & ~1` (R131). -/
def jalrTarget (s : State) (rs1 : Reg) (imm : Word) : Word := effectiveAddress s rs1 imm &&& ~~~1#32

/-- The link value, the address of the next instruction: `pc + 4` (R131, R191). -/
def linkValue (s : State) : Word := s.pc + 4#32

end Sys2Proof.Machine
end

