-- ==== Sys2Proof/Machine/BType.lean ====
section
/-! DEFINITION. Type B, conditional branches (`44_b_type.md` R180 to R186): no register is written, nothing is linked, there is
no delay slot. -/

namespace Sys2Proof.Machine

/-- `beq rs1, rs2, imm` (R181): taken when `x[rs1] == x[rs2]`. -/
def execBeq (rs1 rs2 : Reg) (imm : Word) (s : State) : Result :=
  branchIf s (equalWords (s.reg rs1) (s.reg rs2)) imm

/-- `bne rs1, rs2, imm` (R182): taken when `x[rs1] != x[rs2]`. -/
def execBne (rs1 rs2 : Reg) (imm : Word) (s : State) : Result :=
  branchIf s (!equalWords (s.reg rs1) (s.reg rs2)) imm

/-- `blt rs1, rs2, imm` (R183): taken when `x[rs1] <s x[rs2]`. -/
def execBlt (rs1 rs2 : Reg) (imm : Word) (s : State) : Result :=
  branchIf s (lessSigned (s.reg rs1) (s.reg rs2)) imm

/-- `bge rs1, rs2, imm` (R184): taken when not `x[rs1] <s x[rs2]`. -/
def execBge (rs1 rs2 : Reg) (imm : Word) (s : State) : Result :=
  branchIf s (!lessSigned (s.reg rs1) (s.reg rs2)) imm

/-- `bltu rs1, rs2, imm` (R185): taken when `x[rs1] <u x[rs2]`. -/
def execBltu (rs1 rs2 : Reg) (imm : Word) (s : State) : Result :=
  branchIf s (lessUnsigned (s.reg rs1) (s.reg rs2)) imm

/-- `bgeu rs1, rs2, imm` (R186): taken when not `x[rs1] <u x[rs2]`. -/
def execBgeu (rs1 rs2 : Reg) (imm : Word) (s : State) : Result :=
  branchIf s (!lessUnsigned (s.reg rs1) (s.reg rs2)) imm

end Sys2Proof.Machine
end

