-- ==== Sys2Proof/Machine/IType.lean ====
section
/-! DEFINITION. Type I (`41_i_type.md` R130 to R145): the indirect jump, the loads, register-immediate arithmetic and logic, and
the shifts by a constant. Each reads `x[rs1]` before it writes `x[rd]` (R12). -/

namespace Sys2Proof.Machine

/-- `jalr rd, imm(rs1)` (R131): the target from the old `x[rs1]`, then the link. -/
def execJalr (rd rs1 : Reg) (imm : Word) (s : State) : Result :=
  transferTo s (s.setReg rd (linkValue s)) (jalrTarget s rs1 imm)

/-- `lw rd, imm(rs1)` (R132): all 32 bits. -/
def execLw (rd rs1 : Reg) (imm : Word) (s : State) : Result :=
  loadInto s rd .word id (effectiveAddress s rs1 imm)

/-- `lh rd, imm(rs1)` (R133): sign-extended half-word. -/
def execLh (rd rs1 : Reg) (imm : Word) (s : State) : Result :=
  loadInto s rd .half signExtendHalf (effectiveAddress s rs1 imm)

/-- `lhu rd, imm(rs1)` (R134): zero-extended half-word. -/
def execLhu (rd rs1 : Reg) (imm : Word) (s : State) : Result :=
  loadInto s rd .half zeroExtendHalf (effectiveAddress s rs1 imm)

/-- `lb rd, imm(rs1)` (R135): sign-extended byte. -/
def execLb (rd rs1 : Reg) (imm : Word) (s : State) : Result :=
  loadInto s rd .byte signExtendByte (effectiveAddress s rs1 imm)

/-- `lbu rd, imm(rs1)` (R136): zero-extended byte. -/
def execLbu (rd rs1 : Reg) (imm : Word) (s : State) : Result :=
  loadInto s rd .byte zeroExtendByte (effectiveAddress s rs1 imm)

/-- `addi rd, rs1, imm` (R137): `x[rd] <- x[rs1] + imm`. -/
def execAddi (rd rs1 : Reg) (imm : Word) (s : State) : Result :=
  finishWith s rd (s.reg rs1 + imm)

/-- `slti rd, rs1, imm` (R138): `x[rd] <- (x[rs1] <s imm) ? 1 : 0`. -/
def execSlti (rd rs1 : Reg) (imm : Word) (s : State) : Result :=
  finishWith s rd (truthValue (lessSigned (s.reg rs1) imm))

/-- `sltiu rd, rs1, imm` (R139): `x[rd] <- (x[rs1] <u imm) ? 1 : 0`, the sign-extended immediate compared as unsigned. -/
def execSltiu (rd rs1 : Reg) (imm : Word) (s : State) : Result :=
  finishWith s rd (truthValue (lessUnsigned (s.reg rs1) imm))

/-- `andi rd, rs1, imm` (R140): `x[rd] <- x[rs1] & imm`. -/
def execAndi (rd rs1 : Reg) (imm : Word) (s : State) : Result :=
  finishWith s rd (s.reg rs1 &&& imm)

/-- `ori rd, rs1, imm` (R141): `x[rd] <- x[rs1] | imm`. -/
def execOri (rd rs1 : Reg) (imm : Word) (s : State) : Result :=
  finishWith s rd (s.reg rs1 ||| imm)

/-- `xori rd, rs1, imm` (R142): `x[rd] <- x[rs1] ^ imm`. -/
def execXori (rd rs1 : Reg) (imm : Word) (s : State) : Result :=
  finishWith s rd (s.reg rs1 ^^^ imm)

/-- `slli rd, rs1, shamt` (R143): `x[rd] <- x[rs1] << shamt`. -/
def execSlli (rd rs1 : Reg) (shamt : Word) (s : State) : Result :=
  finishWith s rd (s.reg rs1 <<< shamt.toNat)

/-- `srli rd, rs1, shamt` (R144): `x[rd] <- x[rs1] >>u shamt`. -/
def execSrli (rd rs1 : Reg) (shamt : Word) (s : State) : Result :=
  finishWith s rd (s.reg rs1 >>> shamt.toNat)

/-- `srai rd, rs1, shamt` (R145): `x[rd] <- x[rs1] >>s shamt`. -/
def execSrai (rd rs1 : Reg) (shamt : Word) (s : State) : Result :=
  finishWith s rd ((s.reg rs1).sshiftRight shamt.toNat)

end Sys2Proof.Machine
end

