-- ==== Sys2Proof/Machine/JType.lean ====
section
/-! DEFINITION. Type J (`45_j_type.md` R190, R191): the one direct jump, relative to its own address. -/

namespace Sys2Proof.Machine

/-- `jal rd, imm` (R191): `x[rd] <- pc + 4; pc <- pc + imm`. -/
def execJal (rd : Reg) (imm : Word) (s : State) : Result :=
  transferTo s (s.setReg rd (linkValue s)) (s.pc + imm)

end Sys2Proof.Machine
end

