-- ==== Sys2Proof/Machine/RType.lean ====
section
/-! DEFINITION. Type R, register-register (`40_r_type.md` R110 to R120): each computes a 32-bit result from `x[rs1]` and
`x[rs2]` alone, writes it to `x[rd]` and goes on to the next instruction; none can raise. -/

namespace Sys2Proof.Machine

/-- `add rd, rs1, rs2` (R111): `x[rd] <- x[rs1] + x[rs2]`. -/
def execAdd (rd rs1 rs2 : Reg) (s : State) : Result :=
  finishWith s rd (s.reg rs1 + s.reg rs2)

/-- `sub rd, rs1, rs2` (R112): `x[rd] <- x[rs1] - x[rs2]`. -/
def execSub (rd rs1 rs2 : Reg) (s : State) : Result :=
  finishWith s rd (s.reg rs1 - s.reg rs2)

/-- `slt rd, rs1, rs2` (R113): `x[rd] <- (x[rs1] <s x[rs2]) ? 1 : 0`. -/
def execSlt (rd rs1 rs2 : Reg) (s : State) : Result :=
  finishWith s rd (truthValue (lessSigned (s.reg rs1) (s.reg rs2)))

/-- `sltu rd, rs1, rs2` (R114): `x[rd] <- (x[rs1] <u x[rs2]) ? 1 : 0`. -/
def execSltu (rd rs1 rs2 : Reg) (s : State) : Result :=
  finishWith s rd (truthValue (lessUnsigned (s.reg rs1) (s.reg rs2)))

/-- `and rd, rs1, rs2` (R115): `x[rd] <- x[rs1] & x[rs2]`. -/
def execAnd (rd rs1 rs2 : Reg) (s : State) : Result :=
  finishWith s rd (s.reg rs1 &&& s.reg rs2)

/-- `or rd, rs1, rs2` (R116): `x[rd] <- x[rs1] | x[rs2]`. -/
def execOr (rd rs1 rs2 : Reg) (s : State) : Result :=
  finishWith s rd (s.reg rs1 ||| s.reg rs2)

/-- `xor rd, rs1, rs2` (R117): `x[rd] <- x[rs1] ^ x[rs2]`. -/
def execXor (rd rs1 rs2 : Reg) (s : State) : Result :=
  finishWith s rd (s.reg rs1 ^^^ s.reg rs2)

/-- `sll rd, rs1, rs2` (R118): `x[rd] <- x[rs1] << x[rs2][4:0]`. -/
def execSll (rd rs1 rs2 : Reg) (s : State) : Result :=
  finishWith s rd (s.reg rs1 <<< shiftAmount (s.reg rs2))

/-- `srl rd, rs1, rs2` (R119): `x[rd] <- x[rs1] >>u x[rs2][4:0]`. -/
def execSrl (rd rs1 rs2 : Reg) (s : State) : Result :=
  finishWith s rd (s.reg rs1 >>> shiftAmount (s.reg rs2))

/-- `sra rd, rs1, rs2` (R120): `x[rd] <- x[rs1] >>s x[rs2][4:0]`. -/
def execSra (rd rs1 rs2 : Reg) (s : State) : Result :=
  finishWith s rd ((s.reg rs1).sshiftRight (shiftAmount (s.reg rs2)))

end Sys2Proof.Machine
end

