-- ==== Sys2Proof/Machine/SType.lean ====
section
/-! DEFINITION. Type S, stores (`42_s_type.md` R160 to R163): write the low bytes of `x[rs2]` to memory, no register. -/

namespace Sys2Proof.Machine

/-- `sw rs2, imm(rs1)` (R161): stores all 32 bits of `x[rs2]`. -/
def execSw (rs2 rs1 : Reg) (imm : Word) (s : State) : Result :=
  storeAt s .word (effectiveAddress s rs1 imm) (s.reg rs2)

/-- `sh rs2, imm(rs1)` (R162): stores bits 15 to 0 of `x[rs2]`. -/
def execSh (rs2 rs1 : Reg) (imm : Word) (s : State) : Result :=
  storeAt s .half (effectiveAddress s rs1 imm) (s.reg rs2)

/-- `sb rs2, imm(rs1)` (R163): stores bits 7 to 0 of `x[rs2]`. -/
def execSb (rs2 rs1 : Reg) (imm : Word) (s : State) : Result :=
  storeAt s .byte (effectiveAddress s rs1 imm) (s.reg rs2)

end Sys2Proof.Machine
end

