-- ==== Sys2Proof/Machine/UType.lean ====
section
/-! DEFINITION. Type U, upper immediates (`43_u_type.md` R170 to R172); `imm` is `inst[31:12] ++ 0^12` (`30_encoding.md` R83). -/

namespace Sys2Proof.Machine

/-- `lui rd, uimm` (R171): `x[rd] <- uimm ++ 0^12`. -/
def execLui (rd : Reg) (imm : Word) (s : State) : Result :=
  finishWith s rd imm

/-- `auipc rd, uimm` (R172): `x[rd] <- pc + (uimm ++ 0^12)`, the pc of this instruction. -/
def execAuipc (rd : Reg) (imm : Word) (s : State) : Result :=
  finishWith s rd (s.pc + imm)

end Sys2Proof.Machine
end

