-- ==== Sys2Proof/Machine/Step.lean ====
section
/-! DEFINITION. One step of the machine (`00_scope.md` R16), and the placing of one instruction where the next step fetches it. -/

namespace Sys2Proof.Machine

/-- One step (R16). Only a `Running` machine steps (R31): elsewhere no step exists, a named stuck state. A running machine at
`END_PC` halts (R242); else it fetches and decodes, which can raise, and executes. -/
def step (s : State) : Host.Outcome State Fault Refusal :=
  match s.status with
  | .halted => .fault .stepAfterHalt
  | .faulted _ _ _ => .fault .stepAfterException
  | .running =>
    if s.atEnd then .next s.halt
    else
      match fetchInstr s with
      | .error r => takeException s r
      | .ok i => exec i s

/-- The launcher's work for one instruction (`70_reset_and_hazards.md` R241; log entry 10): the word stands little-endian at the pc,
in memory that `MEM_MAP` marks executable, the machine runs, and the pc is not `END_PC`. What already holds is left as it is. -/
def State.withFetchWord (s : State) (nbits w : Nat) : State :=
  placeWord s (tableWord nbits w)

end Sys2Proof.Machine
end

