-- ==== Sys2Proof/Machine/Launch.lean ====
section
/-! DEFINITION. Reset as the construction of the start state from the open parameters (`70_reset_and_hazards.md` R240;
`00_scope.md` R6; `10_state.md` R32 to R35), and the program image a launcher puts into `INIT_MEM` (R241). -/

namespace Sys2Proof.Machine

/-- The five open parameters of R6. -/
structure LaunchParams where
  /-- `RESET_PC` -/
  resetPc : Word
  /-- `END_PC` -/
  endPc : Word
  /-- `MEM_MAP` -/
  memMap : List Region
  /-- `INIT_MEM`: the first pair that names an address gives its byte; an address none names holds `Config.unlistedByte` -/
  initMem : List Host.Cell
  /-- `INIT_REGS`: `x1` to `x31` -/
  initRegs : RegFile
  deriving DecidableEq, Repr

/-- What R240 demands of the parameters. That no byte has both `w` and `x` holds by the type `Perm`. -/
def legalParams (p : LaunchParams) : Bool := p.resetPc.toNat % 4 == 0 && p.endPc.toNat % 4 == 0

/-- `INIT_MEM` on the addresses `MEM_MAP` gives a permission (R34); an address with an empty permission set holds nothing. -/
def initialMemory (p : Platform) : List Host.Cell → Memory
  | [] => []
  | (a, b) :: cells => if permAt p a = .none then initialMemory p cells else (initialMemory p cells).write a b

/-- The start state (R240); parameters that break R240 are refused at configuration. -/
def launch (p : LaunchParams) : Option State :=
  if legalParams p then
    some {
      regs := p.initRegs
      pc := p.resetPc
      mem := initialMemory ⟨p.memMap, p.endPc⟩ p.initMem
      status := .running
      platform := ⟨p.memMap, p.endPc⟩ }
  else none

/-- The cells of a program image: each word little-endian, the first at `base`, the next four bytes further (R241 (a)). -/
def imageCells (base : Nat) : List Word → List Host.Cell
  | [] => []
  | w :: ws =>
    (base, w.extractLsb' 0 8) :: (base + 1, w.extractLsb' 8 8) :: (base + 2, w.extractLsb' 16 8) :: (base + 3, w.extractLsb' 24 8)
      :: imageCells (base + 4) ws

end Sys2Proof.Machine
end

