-- ==== Sys2Proof/Machine/Assembler.lean ====
section
/-! DEFINITION. The assembly language of the spec: operand syntax (`30_encoding.md` R89), labels (R90), operand ranges (R91), no
pseudo-instruction (R92), register names (`10_state.md` R22). Text goes to instructions, instructions to words by `encode`.
No step of the machine uses this file. Lexical details R89 does not state are named in log entry 19. -/

namespace Sys2Proof.Machine

/-- Why a text is no program of this machine. All are safe: nothing is assembled (`92_eei_decisions.md` D19). -/
inductive AsmError where
  /-- the mnemonic is none of the 37, a pseudo-instruction among them (R92) -/
  | unknownMnemonic
  /-- the operands do not have the mnemonic's form (R89) -/
  | operandSyntax
  /-- neither `x0` .. `x31` nor a name of R22 -/
  | unknownRegister
  /-- no number where one must stand -/
  | malformedNumber
  /-- no label of this name -/
  | unknownLabel
  /-- the same label before two instructions -/
  | duplicateLabel
  /-- an operand outside its range, or an odd jump offset: it has no encoding (R91) -/
  | operandOutOfRange
  deriving DecidableEq, Repr

/-! ## Registers (R22) -/

/-- The 32 names of R22, register 0 first. -/
def registerNames : List String :=
  [ "zero", "ra", "sp", "gp", "tp", "t0", "t1", "t2", "s0", "s1", "a0", "a1", "a2", "a3", "a4", "a5",
    "a6", "a7", "s2", "s3", "s4", "s5", "s6", "s7", "s8", "s9", "s10", "s11", "t3", "t4", "t5", "t6" ]

/-- The `xn` names, register 0 first. -/
def registerNumbers : List String :=
  [ "x0", "x1", "x2", "x3", "x4", "x5", "x6", "x7", "x8", "x9", "x10", "x11", "x12", "x13", "x14", "x15",
    "x16", "x17", "x18", "x19", "x20", "x21", "x22", "x23", "x24", "x25", "x26", "x27", "x28", "x29", "x30", "x31" ]

/-- The place of a name in a list of names. -/
def nameIndex : List String → List Char → Option Nat
  | [], _ => none
  | n :: ns, cs => if n.toList = cs then some 0 else (nameIndex ns cs).map (· + 1)

/-- The register a name spells: `xn` or the name of R22, both the same number. -/
def parseRegister (cs : List Char) : Except AsmError Reg :=
  match nameIndex registerNames cs with
  | some n => .ok (BitVec.ofNat 5 n)
  | none =>
    match nameIndex registerNumbers cs with
    | some n => .ok (BitVec.ofNat 5 n)
    | none => .error .unknownRegister

/-! ## Numbers (R89): decimal with an optional minus sign, or hexadecimal after `0x` -/

/-- The value of a digit in a base up to 16. -/
def digitValue (base : Nat) (c : Char) : Option Nat :=
  let v :=
    if '0'.toNat ≤ c.toNat ∧ c.toNat ≤ '9'.toNat then some (c.toNat - '0'.toNat)
    else if 'a'.toNat ≤ c.toNat ∧ c.toNat ≤ 'f'.toNat then some (c.toNat - 'a'.toNat + 10)
    else if 'A'.toNat ≤ c.toNat ∧ c.toNat ≤ 'F'.toNat then some (c.toNat - 'A'.toNat + 10)
    else none
  match v with
  | some n => if n < base then some n else none
  | none => none

/-- The value of a row of digits after the value `acc` of those before it. -/
def digitsValue (base : Nat) : Nat → List Char → Option Nat
  | acc, [] => some acc
  | acc, c :: cs =>
    match digitValue base c with
    | some d => digitsValue base (acc * base + d) cs
    | none => none

/-- At least one digit. -/
def parseDigits (base : Nat) : List Char → Option Nat
  | [] => none
  | c :: cs => digitsValue base 0 (c :: cs)

/-- A number as R89 writes it. -/
def parseNumber : List Char → Option Int
  | '-' :: cs => (parseDigits 10 cs).map fun n => -(n : Int)
  | '0' :: 'x' :: cs => (parseDigits 16 cs).map Int.ofNat
  | cs => (parseDigits 10 cs).map Int.ofNat

/-! ## Lines (R89): `[LABEL:] mnemonic operands [# comment]` -/

/-- A token of a line. -/
inductive Token where
  | atom (cs : List Char)
  | comma
  | leftParen
  | rightParen
  | colon
  deriving DecidableEq, Repr

/-- The token of the characters collected so far (in reverse), before the tokens that follow. -/
def flushAtom (pending : List Char) (rest : List Token) : List Token :=
  if pending = [] then rest else .atom pending.reverse :: rest

/-- The tokens of a line; `#` starts a comment that runs to the line's end, blanks separate. -/
def tokensOf : List Char → List Char → List Token
  | pending, [] => flushAtom pending []
  | pending, c :: cs =>
    if c = '#' then flushAtom pending []
    else if c = ' ' ∨ c = '\t' ∨ c = '\r' then flushAtom pending (tokensOf [] cs)
    else if c = ',' then flushAtom pending (.comma :: tokensOf [] cs)
    else if c = '(' then flushAtom pending (.leftParen :: tokensOf [] cs)
    else if c = ')' then flushAtom pending (.rightParen :: tokensOf [] cs)
    else if c = ':' then flushAtom pending (.colon :: tokensOf [] cs)
    else tokensOf (c :: pending) cs

/-- A source line: its label, the mnemonic and the tokens of its operands. -/
structure SourceLine where
  label : Option (List Char)
  mnemonic : List Char
  operands : List Token
  deriving DecidableEq, Repr

/-- A line's parts; a line with no token holds no instruction. -/
def parseLine (line : List Char) : Except AsmError (Option SourceLine) :=
  match tokensOf [] line with
  | [] => .ok none
  | .atom l :: .colon :: .atom m :: ops => .ok (some ⟨some l, m, ops⟩)
  | .atom m :: ops => .ok (some ⟨none, m, ops⟩)
  | _ => .error .operandSyntax

/-! ## Operands (R89 to R91) -/

/-- An immediate of type I or S: -2048 .. 2047. -/
def checkImm12 (n : Int) : Except AsmError Word :=
  if -2048 ≤ n ∧ n ≤ 2047 then .ok (BitVec.ofInt 32 n) else .error .operandOutOfRange

/-- A shift amount: 0 .. 31. -/
def checkShamt (n : Int) : Except AsmError Word :=
  if 0 ≤ n ∧ n ≤ 31 then .ok (BitVec.ofInt 32 n) else .error .operandOutOfRange

/-- `uimm`, the 20-bit field value itself: 0 .. 0xfffff; the instruction holds it shifted to bits 31 to 12 (R83, R89). -/
def checkUpper (n : Int) : Except AsmError Word :=
  if 0 ≤ n ∧ n ≤ 0xfffff then .ok (BitVec.ofInt 32 (n * 4096)) else .error .operandOutOfRange

/-- A branch offset: even, -4096 .. 4094. -/
def checkBranch (n : Int) : Except AsmError Word :=
  if n % 2 = 0 ∧ -4096 ≤ n ∧ n ≤ 4094 then .ok (BitVec.ofInt 32 n) else .error .operandOutOfRange

/-- A `jal` offset: even, -1048576 .. 1048574. -/
def checkJump (n : Int) : Except AsmError Word :=
  if n % 2 = 0 ∧ -1048576 ≤ n ∧ n ≤ 1048574 then .ok (BitVec.ofInt 32 n) else .error .operandOutOfRange

/-- A number in an operand's place. -/
def parseImmediate (check : Int → Except AsmError Word) (cs : List Char) : Except AsmError Word :=
  match parseNumber cs with
  | some n => check n
  | none => .error .malformedNumber

/-- The labels of a program and the addresses they name (R90). -/
abbrev Labels := List (List Char × Word)

/-- A branch or `jal` target: a number is the byte offset itself, a label stands for its address less this instruction's (R90). -/
def parseTarget (check : Int → Except AsmError Word) (labels : Labels) (here : Word) (cs : List Char) : Except AsmError Word :=
  match parseNumber cs with
  | some n => check n
  | none =>
    match labels.lookup cs with
    | some a => check ((a.toNat : Int) - here.toNat)
    | none => .error .unknownLabel

/-- `rd, rs1, rs2`. -/
def parseRegisters3 (mk : Reg → Reg → Reg → Instr) : List Token → Except AsmError Instr
  | [.atom a, .comma, .atom b, .comma, .atom c] =>
    match parseRegister a, parseRegister b, parseRegister c with
    | .ok rd, .ok rs1, .ok rs2 => .ok (mk rd rs1 rs2)
    | .error e, _, _ => .error e
    | _, .error e, _ => .error e
    | _, _, .error e => .error e
  | _ => .error .operandSyntax

/-- Two registers and a value: `rd, rs1, imm`, `rd, rs1, shamt`, or `rs1, rs2, imm` of a branch. -/
def parseRegisters2 (mk : Reg → Reg → Word → Instr) (value : List Char → Except AsmError Word) :
    List Token → Except AsmError Instr
  | [.atom a, .comma, .atom b, .comma, .atom c] =>
    match parseRegister a, parseRegister b, value c with
    | .ok r, .ok q, .ok v => .ok (mk r q v)
    | .error e, _, _ => .error e
    | _, .error e, _ => .error e
    | _, _, .error e => .error e
  | _ => .error .operandSyntax

/-- `r, imm(rs1)`: loads and `jalr` with `rd` first, stores with `rs2` first. -/
def parseMemoryForm (mk : Reg → Reg → Word → Instr) : List Token → Except AsmError Instr
  | [.atom a, .comma, .atom i, .leftParen, .atom b, .rightParen] =>
    match parseRegister a, parseImmediate checkImm12 i, parseRegister b with
    | .ok r, .ok imm, .ok rs1 => .ok (mk r rs1 imm)
    | .error e, _, _ => .error e
    | _, .error e, _ => .error e
    | _, _, .error e => .error e
  | _ => .error .operandSyntax

/-- `rd, uimm` and `rd, imm` of types U and J. -/
def parseRegister1 (mk : Reg → Word → Instr) (value : List Char → Except AsmError Word) : List Token → Except AsmError Instr
  | [.atom a, .comma, .atom c] =>
    match parseRegister a, value c with
    | .ok rd, .ok v => .ok (mk rd v)
    | .error e, _ => .error e
    | _, .error e => .error e
  | _ => .error .operandSyntax

/-- The operand form of a mnemonic (R89), with the instruction it makes. -/
inductive OperandForm where
  | registers3 (mk : Reg → Reg → Reg → Instr)
  | immediate (mk : Reg → Reg → Word → Instr)
  | shift (mk : Reg → Reg → Word → Instr)
  | memory (mk : Reg → Reg → Word → Instr)
  | upper (mk : Reg → Word → Instr)
  | branch (mk : Reg → Reg → Word → Instr)
  | jump (mk : Reg → Word → Instr)

/-- The 37 mnemonics and no other (R92). -/
def mnemonicForms : List (String × OperandForm) :=
  [ ("add", .registers3 .add), ("sub", .registers3 .sub), ("slt", .registers3 .slt), ("sltu", .registers3 .sltu),
    ("and", .registers3 .and), ("or", .registers3 .or), ("xor", .registers3 .xor), ("sll", .registers3 .sll),
    ("srl", .registers3 .srl), ("sra", .registers3 .sra),
    ("jalr", .memory .jalr), ("lw", .memory .lw), ("lh", .memory .lh), ("lhu", .memory .lhu), ("lb", .memory .lb),
    ("lbu", .memory .lbu),
    ("addi", .immediate .addi), ("slti", .immediate .slti), ("sltiu", .immediate .sltiu), ("andi", .immediate .andi),
    ("ori", .immediate .ori), ("xori", .immediate .xori),
    ("slli", .shift .slli), ("srli", .shift .srli), ("srai", .shift .srai),
    ("sw", .memory .sw), ("sh", .memory .sh), ("sb", .memory .sb),
    ("lui", .upper .lui), ("auipc", .upper .auipc),
    ("beq", .branch .beq), ("bne", .branch .bne), ("blt", .branch .blt), ("bge", .branch .bge), ("bltu", .branch .bltu),
    ("bgeu", .branch .bgeu),
    ("jal", .jump .jal) ]

/-- The operand form of a mnemonic's characters. -/
def formOf : List (String × OperandForm) → List Char → Option OperandForm
  | [], _ => none
  | (n, f) :: rest, cs => if n.toList = cs then some f else formOf rest cs

/-- The instruction a mnemonic and its operands write at the address `here`. -/
def assembleInstr (labels : Labels) (here : Word) (mnemonic : List Char) (ops : List Token) : Except AsmError Instr :=
  match formOf mnemonicForms mnemonic with
  | none => .error .unknownMnemonic
  | some (.registers3 mk) => parseRegisters3 mk ops
  | some (.immediate mk) => parseRegisters2 mk (parseImmediate checkImm12) ops
  | some (.shift mk) => parseRegisters2 mk (parseImmediate checkShamt) ops
  | some (.memory mk) => parseMemoryForm mk ops
  | some (.upper mk) => parseRegister1 mk (parseImmediate checkUpper) ops
  | some (.branch mk) => parseRegisters2 mk (parseTarget checkBranch labels here) ops
  | some (.jump mk) => parseRegister1 mk (parseTarget checkJump labels here) ops

/-! ## Programs -/

/-- The lines of a program that hold an instruction. -/
def parseLines : List (List Char) → Except AsmError (List SourceLine)
  | [] => .ok []
  | l :: ls =>
    match parseLine l, parseLines ls with
    | .ok none, r => r
    | .ok (some x), .ok xs => .ok (x :: xs)
    | .error e, _ => .error e
    | _, .error e => .error e

/-- The labels of a program whose first instruction stands at `here`; each instruction is 4 bytes (R70, R90). -/
def labelsOf : Word → List SourceLine → Except AsmError Labels
  | _, [] => .ok []
  | here, x :: xs =>
    match labelsOf (here + 4#32) xs with
    | .error e => .error e
    | .ok labels =>
      match x.label with
      | none => .ok labels
      | some l => if (labels.lookup l).isSome then .error .duplicateLabel else .ok ((l, here) :: labels)

/-- The instructions of the lines, the first at `here`. -/
def assembleLines (labels : Labels) : Word → List SourceLine → Except AsmError (List Instr)
  | _, [] => .ok []
  | here, x :: xs =>
    match assembleInstr labels here x.mnemonic x.operands, assembleLines labels (here + 4#32) xs with
    | .ok i, .ok is => .ok (i :: is)
    | .error e, _ => .error e
    | _, .error e => .error e

/-- A program's instructions, placed from the address `base` on. -/
def assemble (base : Word) (lines : List (List Char)) : Except AsmError (List Instr) :=
  match parseLines lines with
  | .error e => .error e
  | .ok xs =>
    match labelsOf base xs with
    | .error e => .error e
    | .ok labels => assembleLines labels base xs

/-- The characters of a text cut at the line ends, the line being read in reverse in `pending`. -/
def linesOf : List Char → List Char → List (List Char)
  | pending, [] => [pending.reverse]
  | pending, c :: cs => if c = '\n' then pending.reverse :: linesOf [] cs else linesOf (c :: pending) cs

/-- The machine code of a program text (R91: assembly and machine code correspond one to one). -/
def assembleText (base : Word) (text : String) : Except AsmError (List Word) :=
  match assemble base (linesOf [] text.toList) with
  | .ok is => .ok (is.map encode)
  | .error e => .error e

end Sys2Proof.Machine
end

