-- ==== Sys2Proof/Safety.lean ====
section
/-! DEFINITION. What counts as a good run, in the terms the statements use: which states are legal, what a recorded exception says of
the state it was raised in, and which states a run reaches. -/

namespace Sys2Proof.Machine

/-- The machine has not taken an exception: it runs, or its run has ended normally (`60_exceptions.md` R201: a `Faulted` state is not a
final state). -/
def State.good (s : State) : Bool :=
  match s.status with
  | .running => true
  | .halted => true
  | .faulted _ _ _ => false

/-- Every byte of an access of `n` bytes at `a` has the permission it needs (`20_memory.md` R42, R43). -/
def Accessible (s : State) (k : AccessKind) (a n : Nat) : Prop := ∀ i < n, permits (permAt s.platform (a + i)) k = true

/-- What `info` says when the exception is the recorded one (`60_exceptions.md` R200). -/
def InfoRecords (s : State) (info : Word) : Exception → Prop
  | .instructionAddressMisaligned => info.toNat % 4 ≠ 0
  | .instructionAccessFault => info = s.pc ∧ s.pc.toNat % 4 = 0 ∧ ¬ Accessible s .fetch info.toNat 4
  | .illegalInstruction =>
    Accessible s .fetch s.pc.toNat 4 ∧ info = readLE s.mem s.pc.toNat .word ∧ decode info = .error (.illegalInstruction info)
  | .loadAddressMisaligned => info.toNat % 4 ≠ 0
  | .loadAccessFault => ∃ w : Width, info.toNat % w.bytes = 0 ∧ ¬ Accessible s .load info.toNat w.bytes
  | .storeAddressMisaligned => info.toNat % 4 ≠ 0
  | .storeAccessFault => ∃ w : Width, info.toNat % w.bytes = 0 ∧ ¬ Accessible s .store info.toNat w.bytes

/-- The status says the truth about the state (`10_state.md` R31): a halted machine stands at `END_PC` (R242), a faulted one stands at
the instruction that raised, with the `info` R200 gives its exception. -/
def StatusTruthful (s : State) : Prop :=
  match s.status with
  | .running => True
  | .halted => s.pc = s.platform.endPc
  | .faulted e p info => p = s.pc ∧ s.pc ≠ s.platform.endPc ∧ InfoRecords s info e

/-- The invariant of the machine: memory in canonical form with contents only where `MEM_MAP` gives a permission (R34, R41), the pc and
`END_PC` multiples of 4 (R25, R242), and a truthful status. -/
structure LegalState (s : State) : Prop where
  canonical : s.mem.wf
  mapped : ∀ c ∈ s.mem, permAt s.platform c.1 ≠ .none
  pcAligned : s.pc.toNat % 4 = 0
  endAligned : s.platform.endPc.toNat % 4 = 0
  truthful : StatusTruthful s

/-- `t` is reached from `s` in some number of steps. -/
inductive Reaches (s : State) : State → Prop where
  | start : Reaches s s
  | further (t u : State) : Reaches s t → step t = .next u → Reaches s u

end Sys2Proof.Machine
end

