-- ==== Sys2Proof/Certificates/Slice0/Obligations.lean ====
section
/-! DEFINITION. The statements for the provers. Each formalises what numbered rules of spec/ say an instruction or the machine does;
`OBLIGATIONS.json` names the rules. Where a statement speaks of an instruction it quantifies over the bits of its encoding, so it
covers every form the spec gives the instruction and no hypothesis shuts one out. -/

namespace Sys2Proof.Machine

/-! ## The shapes of what an instruction does -/

/-- The word matches the row of the opcode map and decodes to the instruction (`30_encoding.md` R85, R86). -/
def EncodedAs (w mask pattern : Word) (i : Instr) : Prop := w &&& mask = pattern ∧ decode w = .ok i

/-- A register result and its frame: `rd` holds `v` (or still zero, if it is `x0`), the pc has advanced by 4, and no other register,
no byte of memory, not the status and no parameter has changed. -/
structure RegisterResult (s t : State) (rd : Reg) (v : Word) : Prop where
  destination : t.reg rd = if rd = 0#5 then 0#32 else v
  otherRegisters : ∀ r, r ≠ rd → t.reg r = s.reg r
  pc : t.pc = s.pc + 4#32
  memory : ∀ a, t.mem.read a = s.mem.read a
  status : t.status = s.status
  platform : t.platform = s.platform

/-- The instruction completes in this state with the register result `v`. -/
def Computes (i : Instr) (s : State) (rd : Reg) (v : Word) : Prop := ∃ t, exec i s = .next t ∧ RegisterResult s t rd v

/-- A store and its frame: the `n` bytes at `a` hold the low `8n` bits of `v`, lowest byte first; every other byte, every register,
the status and the parameters are as before; the pc has advanced by 4. -/
structure StoreResult (s t : State) (a n : Nat) (v : Word) : Prop where
  stored : ∀ k < n, t.mem.read (a + k) = v.extractLsb' (8 * k) 8
  otherBytes : ∀ x, x < a ∨ a + n ≤ x → t.mem.read x = s.mem.read x
  registers : ∀ r, t.reg r = s.reg r
  pc : t.pc = s.pc + 4#32
  status : t.status = s.status
  platform : t.platform = s.platform

/-- A control transfer to `target` that leaves the link in `rd`, and its frame. -/
structure LinkResult (s t : State) (rd : Reg) (target : Word) : Prop where
  link : t.reg rd = if rd = 0#5 then 0#32 else s.pc + 4#32
  otherRegisters : ∀ r, r ≠ rd → t.reg r = s.reg r
  pc : t.pc = target
  memory : ∀ a, t.mem.read a = s.mem.read a
  status : t.status = s.status
  platform : t.platform = s.platform

/-- Only the pc has changed. -/
structure PcResult (s t : State) (target : Word) : Prop where
  pc : t.pc = target
  registers : ∀ r, t.reg r = s.reg r
  memory : ∀ a, t.mem.read a = s.mem.read a
  status : t.status = s.status
  platform : t.platform = s.platform

/-- The instruction raises: the status records the exception, the instruction's own address and `info`, and nothing else changes
(`00_scope.md` R14, `60_exceptions.md` R201, R203). -/
def Raises (i : Instr) (s : State) (e : Exception) (info : Word) : Prop :=
  exec i s = .next { s with status := .faulted e s.pc info }

/-- A load of `n` bytes from `a`: the value `v` where the bytes are readable and the address aligned; misalignment is checked before
permission (`20_memory.md` R42). -/
def LoadBehaviour (i : Instr) (s : State) (rd : Reg) (a : Word) (n : Nat) (v : Word) : Prop :=
  (a.toNat % n = 0 → Accessible s .load a.toNat n → Computes i s rd v) ∧
  (a.toNat % n ≠ 0 → Raises i s .loadAddressMisaligned a) ∧
  (a.toNat % n = 0 → ¬ Accessible s .load a.toNat n → Raises i s .loadAccessFault a)

/-- A load of the byte at `a`, which is aligned at every address (R42). -/
def ByteLoadBehaviour (i : Instr) (s : State) (rd : Reg) (a : Word) (v : Word) : Prop :=
  (Accessible s .load a.toNat 1 → Computes i s rd v) ∧
  (¬ Accessible s .load a.toNat 1 → Raises i s .loadAccessFault a)

/-- A store of the low `n` bytes of `v` at `a` (R42). -/
def StoreBehaviour (i : Instr) (s : State) (a : Word) (n : Nat) (v : Word) : Prop :=
  (a.toNat % n = 0 → Accessible s .store a.toNat n → ∃ t, exec i s = .next t ∧ StoreResult s t a.toNat n v) ∧
  (a.toNat % n ≠ 0 → Raises i s .storeAddressMisaligned a) ∧
  (a.toNat % n = 0 → ¬ Accessible s .store a.toNat n → Raises i s .storeAccessFault a)

/-- A store of the low byte of `v` at `a`, which is aligned at every address (R42). -/
def ByteStoreBehaviour (i : Instr) (s : State) (a : Word) (v : Word) : Prop :=
  (Accessible s .store a.toNat 1 → ∃ t, exec i s = .next t ∧ StoreResult s t a.toNat 1 v) ∧
  (¬ Accessible s .store a.toNat 1 → Raises i s .storeAccessFault a)

/-- A branch (`44_b_type.md` R180): not taken, the next instruction; taken, the target relative to the branch, or the exception of a
target that is not a multiple of 4. -/
def BranchBehaviour (i : Instr) (s : State) (taken : Prop) (imm : Word) : Prop :=
  (¬ taken → ∃ t, exec i s = .next t ∧ PcResult s t (s.pc + 4#32)) ∧
  (taken → (s.pc + imm).toNat % 4 = 0 → ∃ t, exec i s = .next t ∧ PcResult s t (s.pc + imm)) ∧
  (taken → (s.pc + imm).toNat % 4 ≠ 0 → Raises i s .instructionAddressMisaligned (s.pc + imm))

/-- A jump with link (`41_i_type.md` R131, `45_j_type.md` R191). Whether memory exists at the target is not checked by the jump: the
next step's fetch raises if none may be fetched there, unless the run ends at that very address. -/
def JumpBehaviour (i : Instr) (s : State) (rd : Reg) (target : Word) : Prop :=
  (target.toNat % 4 = 0 → ∃ t, exec i s = .next t ∧ LinkResult s t rd target ∧
    (s.status = .running → target ≠ s.platform.endPc → ¬ Accessible s .fetch target.toNat 4 →
      step t = .next { t with status := .faulted .instructionAccessFault target target })) ∧
  (target.toNat % 4 ≠ 0 → Raises i s .instructionAddressMisaligned target)

/-- `instr` with `opcode = 1100011` and the pieces of a B-immediate in their places (`30_encoding.md` R76). -/
def branchWord (i12 : BitVec 1) (i10_5 : BitVec 6) (rs2 rs1 : Reg) (funct3 : BitVec 3) (i4_1 : BitVec 4) (i11 : BitVec 1) : Word :=
  i12 ++ i10_5 ++ rs2 ++ rs1 ++ funct3 ++ i4_1 ++ i11 ++ 0b1100011#7

/-- The B-immediate those pieces make (R82). -/
def branchImm (i12 : BitVec 1) (i10_5 : BitVec 6) (i4_1 : BitVec 4) (i11 : BitVec 1) : Word :=
  (i12 ++ i11 ++ i10_5 ++ i4_1 ++ 0#1 : BitVec 13).signExtend 32

/-! ## What an instruction reads and writes -/

/-- The register an instruction names as its destination; stores and branches have none. -/
def destination : Instr → Option Reg
  | .add rd _ _ | .sub rd _ _ | .slt rd _ _ | .sltu rd _ _ | .and rd _ _ | .or rd _ _ | .xor rd _ _ | .sll rd _ _ | .srl rd _ _
  | .sra rd _ _ | .jalr rd _ _ | .lw rd _ _ | .lh rd _ _ | .lhu rd _ _ | .lb rd _ _ | .lbu rd _ _ | .addi rd _ _ | .slti rd _ _
  | .sltiu rd _ _ | .andi rd _ _ | .ori rd _ _ | .xori rd _ _ | .slli rd _ _ | .srli rd _ _ | .srai rd _ _ | .lui rd _
  | .auipc rd _ | .jal rd _ => some rd
  | .sw _ _ _ | .sh _ _ _ | .sb _ _ _ | .beq _ _ _ | .bne _ _ _ | .blt _ _ _ | .bge _ _ _ | .bltu _ _ _ | .bgeu _ _ _ => none

/-- The same instruction with another destination; one that has none is left as it is. -/
def withDestination (d : Reg) : Instr → Instr
  | .add _ a b => .add d a b
  | .sub _ a b => .sub d a b
  | .slt _ a b => .slt d a b
  | .sltu _ a b => .sltu d a b
  | .and _ a b => .and d a b
  | .or _ a b => .or d a b
  | .xor _ a b => .xor d a b
  | .sll _ a b => .sll d a b
  | .srl _ a b => .srl d a b
  | .sra _ a b => .sra d a b
  | .jalr _ a imm => .jalr d a imm
  | .lw _ a imm => .lw d a imm
  | .lh _ a imm => .lh d a imm
  | .lhu _ a imm => .lhu d a imm
  | .lb _ a imm => .lb d a imm
  | .lbu _ a imm => .lbu d a imm
  | .addi _ a imm => .addi d a imm
  | .slti _ a imm => .slti d a imm
  | .sltiu _ a imm => .sltiu d a imm
  | .andi _ a imm => .andi d a imm
  | .ori _ a imm => .ori d a imm
  | .xori _ a imm => .xori d a imm
  | .slli _ a imm => .slli d a imm
  | .srli _ a imm => .srli d a imm
  | .srai _ a imm => .srai d a imm
  | .lui _ imm => .lui d imm
  | .auipc _ imm => .auipc d imm
  | .jal _ imm => .jal d imm
  | .sw a b imm => .sw a b imm
  | .sh a b imm => .sh a b imm
  | .sb a b imm => .sb a b imm
  | .beq a b imm => .beq a b imm
  | .bne a b imm => .bne a b imm
  | .blt a b imm => .blt a b imm
  | .bge a b imm => .bge a b imm
  | .bltu a b imm => .bltu a b imm
  | .bgeu a b imm => .bgeu a b imm

/-- Where an instruction stores, with the meaning's own address computation, and how many bytes; nothing for one that stores nothing. -/
def storedBytes (s : State) : Instr → Option (Nat × Nat)
  | .sw _ rs1 imm => some ((effectiveAddress s rs1 imm).toNat, 4)
  | .sh _ rs1 imm => some ((effectiveAddress s rs1 imm).toNat, 2)
  | .sb _ rs1 imm => some ((effectiveAddress s rs1 imm).toNat, 1)
  | _ => none

/-- Two states that differ at most in bytes no load may read and no fetch may read. -/
structure SameVisible (s t : State) : Prop where
  registers : ∀ r, s.reg r = t.reg r
  pc : s.pc = t.pc
  status : s.status = t.status
  platform : s.platform = t.platform
  visibleBytes : ∀ a, permits (permAt s.platform a) .load = true ∨ permits (permAt s.platform a) .fetch = true →
    s.mem.read a = t.mem.read a

/-- The four bytes at `a`, lowest address least significant (R43). -/
def wordAt (m : Memory) (a : Nat) : Word := m.read (a + 3) ++ m.read (a + 2) ++ m.read (a + 1) ++ m.read a

/-- The instruction transfers control to `target` in this state: a jump, or a branch that is taken (R44, R180). -/
def TransfersTo (s : State) (target : Word) : Instr → Prop
  | .jal _ imm => target = s.pc + imm
  | .jalr _ rs1 imm => target = (s.reg rs1 + imm) &&& ~~~1#32
  | .beq a b imm => s.reg a = s.reg b ∧ target = s.pc + imm
  | .bne a b imm => s.reg a ≠ s.reg b ∧ target = s.pc + imm
  | .blt a b imm => (s.reg a).toInt < (s.reg b).toInt ∧ target = s.pc + imm
  | .bge a b imm => (s.reg b).toInt ≤ (s.reg a).toInt ∧ target = s.pc + imm
  | .bltu a b imm => (s.reg a).toNat < (s.reg b).toNat ∧ target = s.pc + imm
  | .bgeu a b imm => (s.reg b).toNat ≤ (s.reg a).toNat ∧ target = s.pc + imm
  | _ => False

/-- The table of register names (`10_state.md` R22): number, `xn`, name. -/
def registerTable : List (Reg × String × String) :=
  [ (0#5, "x0", "zero"), (1#5, "x1", "ra"), (2#5, "x2", "sp"), (3#5, "x3", "gp"), (4#5, "x4", "tp"), (5#5, "x5", "t0"),
    (6#5, "x6", "t1"), (7#5, "x7", "t2"), (8#5, "x8", "s0"), (9#5, "x9", "s1"), (10#5, "x10", "a0"), (11#5, "x11", "a1"),
    (12#5, "x12", "a2"), (13#5, "x13", "a3"), (14#5, "x14", "a4"), (15#5, "x15", "a5"), (16#5, "x16", "a6"), (17#5, "x17", "a7"),
    (18#5, "x18", "s2"), (19#5, "x19", "s3"), (20#5, "x20", "s4"), (21#5, "x21", "s5"), (22#5, "x22", "s6"), (23#5, "x23", "s7"),
    (24#5, "x24", "s8"), (25#5, "x25", "s9"), (26#5, "x26", "s10"), (27#5, "x27", "s11"), (28#5, "x28", "t3"), (29#5, "x29", "t4"),
    (30#5, "x30", "t5"), (31#5, "x31", "t6") ]

/-- The machine runs, does not stand at `END_PC`, and may fetch at its pc. -/
structure CanFetch (s : State) : Prop where
  running : s.status = .running
  notAtEnd : s.pc ≠ s.platform.endPc
  aligned : s.pc.toNat % 4 = 0
  executable : Accessible s .fetch s.pc.toNat 4

end Sys2Proof.Machine

open Sys2Proof Sys2Proof.Machine

/-! ## Encoding -/

/-- Decoding the word of a well-formed instruction gives the instruction back, for all 37 and every operand (R72 to R86, R91). -/
def Obligations.DecodeOfEncodeIsIdentity : Prop :=
  ∀ i : Instr, i.wellFormed = true → decode (encode i) = .ok i

/-- A word that decodes is the encoding of what it decodes to, which is well-formed: no bit is dropped and operands stay in range. -/
def Obligations.EncodeOfDecodeIsIdentity : Prop :=
  ∀ (w : Word) (i : Instr), decode w = .ok i → encode i = w ∧ i.wellFormed = true

/-- The decoder of R86 and the table of R85 agree on every word: a word is the instruction of a row exactly when the row matches, a
word no row matches is refused by name, and no word satisfies two rows. -/
def Obligations.DecodeAgreesWithOpcodeTable : Prop :=
  (∀ (w : Word) (i : Instr), decode w = .ok i → ∃ row ∈ opcodeTable, row.mnemonic = i.mnemonic ∧ w &&& row.mask = row.pattern) ∧
  (∀ (w : Word), ∀ row ∈ opcodeTable, w &&& row.mask = row.pattern → ∃ i, decode w = .ok i ∧ i.mnemonic = row.mnemonic) ∧
  (∀ (w : Word), (∀ row ∈ opcodeTable, w &&& row.mask ≠ row.pattern) → decode w = .error (.illegalInstruction w)) ∧
  (∀ (w : Word), ∀ r ∈ opcodeTable, ∀ q ∈ opcodeTable, w &&& r.mask = r.pattern → w &&& q.mask = q.pattern → r = q)

/-- The seven worked encodings of the source, as corrected (`95_test_vectors.md` S1 to S7, `90_conflicts.md` C1 to C8), decode to the
instructions they stand for, and the misprinted `lui` word is illegal. -/
def Obligations.WorkedExamplesDecode : Prop :=
  decode 0x406283b3#32 = .ok (.sub 7#5 5#5 6#5) ∧
  decode 0xfff2a393#32 = .ok (.slti 7#5 5#5 (-1#32)) ∧
  decode 0x00c4a083#32 = .ok (.lw 1#5 9#5 12#32) ∧
  decode 0xfe530ea3#32 = .ok (.sb 5#5 6#5 (-3#32)) ∧
  decode 0x123452b7#32 = .ok (.lui 5#5 0x12345000#32) ∧
  decode 0xfe62cce3#32 = .ok (.blt 5#5 6#5 (-8#32)) ∧
  decode 0xff9ff0ef#32 = .ok (.jal 1#5 (-8#32)) ∧
  decode 0x123452b3#32 = .error (.illegalInstruction 0x123452b3#32)

/-! ## Type R -/

/-- `add` and `sub` (R111, R112): encoding, result modulo 2^32, and frame. They complete in every state. -/
def Obligations.AddAndSubtract : Prop :=
  ∀ (rd rs1 rs2 : Reg) (s : State),
    EncodedAs (0b0000000#7 ++ rs2 ++ rs1 ++ 0b000#3 ++ rd ++ 0b0110011#7) 0xfe00707f#32 0x00000033#32 (.add rd rs1 rs2) ∧
    Computes (.add rd rs1 rs2) s rd (BitVec.ofNat 32 (((s.reg rs1).toNat + (s.reg rs2).toNat) % 2 ^ 32)) ∧
    EncodedAs (0b0100000#7 ++ rs2 ++ rs1 ++ 0b000#3 ++ rd ++ 0b0110011#7) 0xfe00707f#32 0x40000033#32 (.sub rd rs1 rs2) ∧
    Computes (.sub rd rs1 rs2) s rd (BitVec.ofInt 32 (((s.reg rs1).toNat : Int) - (s.reg rs2).toNat))

/-- `slt` and `sltu` (R113, R114): encoding, the 32-bit value 1 or 0 of the signed or unsigned comparison, and frame. -/
def Obligations.SetIfLess : Prop :=
  ∀ (rd rs1 rs2 : Reg) (s : State),
    EncodedAs (0b0000000#7 ++ rs2 ++ rs1 ++ 0b010#3 ++ rd ++ 0b0110011#7) 0xfe00707f#32 0x00002033#32 (.slt rd rs1 rs2) ∧
    Computes (.slt rd rs1 rs2) s rd (if (s.reg rs1).toInt < (s.reg rs2).toInt then 1#32 else 0#32) ∧
    EncodedAs (0b0000000#7 ++ rs2 ++ rs1 ++ 0b011#3 ++ rd ++ 0b0110011#7) 0xfe00707f#32 0x00003033#32 (.sltu rd rs1 rs2) ∧
    Computes (.sltu rd rs1 rs2) s rd (if (s.reg rs1).toNat < (s.reg rs2).toNat then 1#32 else 0#32)

/-- `and`, `or`, `xor` (R115 to R117): encoding, result bit by bit, and frame. -/
def Obligations.BitwiseLogic : Prop :=
  ∀ (rd rs1 rs2 : Reg) (s : State),
    EncodedAs (0b0000000#7 ++ rs2 ++ rs1 ++ 0b111#3 ++ rd ++ 0b0110011#7) 0xfe00707f#32 0x00007033#32 (.and rd rs1 rs2) ∧
    (∃ v, (∀ k < 32, v.getLsbD k = ((s.reg rs1).getLsbD k && (s.reg rs2).getLsbD k)) ∧ Computes (.and rd rs1 rs2) s rd v) ∧
    EncodedAs (0b0000000#7 ++ rs2 ++ rs1 ++ 0b110#3 ++ rd ++ 0b0110011#7) 0xfe00707f#32 0x00006033#32 (.or rd rs1 rs2) ∧
    (∃ v, (∀ k < 32, v.getLsbD k = ((s.reg rs1).getLsbD k || (s.reg rs2).getLsbD k)) ∧ Computes (.or rd rs1 rs2) s rd v) ∧
    EncodedAs (0b0000000#7 ++ rs2 ++ rs1 ++ 0b100#3 ++ rd ++ 0b0110011#7) 0xfe00707f#32 0x00004033#32 (.xor rd rs1 rs2) ∧
    (∃ v, (∀ k < 32, v.getLsbD k = ((s.reg rs1).getLsbD k ^^ (s.reg rs2).getLsbD k)) ∧ Computes (.xor rd rs1 rs2) s rd v)

/-- `sll`, `srl`, `sra` (R118 to R120): encoding, the shift by the low five bits of `x[rs2]` as multiplication, division and floor
division by a power of two, and frame. -/
def Obligations.RegisterShifts : Prop :=
  ∀ (rd rs1 rs2 : Reg) (s : State),
    EncodedAs (0b0000000#7 ++ rs2 ++ rs1 ++ 0b001#3 ++ rd ++ 0b0110011#7) 0xfe00707f#32 0x00001033#32 (.sll rd rs1 rs2) ∧
    Computes (.sll rd rs1 rs2) s rd (BitVec.ofNat 32 ((s.reg rs1).toNat * 2 ^ ((s.reg rs2).toNat % 32))) ∧
    EncodedAs (0b0000000#7 ++ rs2 ++ rs1 ++ 0b101#3 ++ rd ++ 0b0110011#7) 0xfe00707f#32 0x00005033#32 (.srl rd rs1 rs2) ∧
    Computes (.srl rd rs1 rs2) s rd (BitVec.ofNat 32 ((s.reg rs1).toNat / 2 ^ ((s.reg rs2).toNat % 32))) ∧
    EncodedAs (0b0100000#7 ++ rs2 ++ rs1 ++ 0b101#3 ++ rd ++ 0b0110011#7) 0xfe00707f#32 0x40005033#32 (.sra rd rs1 rs2) ∧
    (∃ v : Word, v.toInt = (s.reg rs1).toInt / 2 ^ ((s.reg rs2).toNat % 32) ∧ Computes (.sra rd rs1 rs2) s rd v)

/-! ## Type I arithmetic -/

/-- `addi` (R137): the 12 immediate bits are sign-extended, the sum is modulo 2^32. -/
def Obligations.AddImmediate : Prop :=
  ∀ (rd rs1 : Reg) (imm : BitVec 12) (s : State),
    EncodedAs (imm ++ rs1 ++ 0b000#3 ++ rd ++ 0b0010011#7) 0x0000707f#32 0x00000013#32 (.addi rd rs1 (imm.signExtend 32)) ∧
    Computes (.addi rd rs1 (imm.signExtend 32)) s rd (BitVec.ofInt 32 ((s.reg rs1).toInt + imm.toInt))

/-- `slti` and `sltiu` (R138, R139): the immediate is sign-extended for both; `sltiu` then compares the two 32-bit values as unsigned
numbers. -/
def Obligations.SetIfLessImmediate : Prop :=
  ∀ (rd rs1 : Reg) (imm : BitVec 12) (s : State),
    EncodedAs (imm ++ rs1 ++ 0b010#3 ++ rd ++ 0b0010011#7) 0x0000707f#32 0x00002013#32 (.slti rd rs1 (imm.signExtend 32)) ∧
    Computes (.slti rd rs1 (imm.signExtend 32)) s rd (if (s.reg rs1).toInt < imm.toInt then 1#32 else 0#32) ∧
    EncodedAs (imm ++ rs1 ++ 0b011#3 ++ rd ++ 0b0010011#7) 0x0000707f#32 0x00003013#32 (.sltiu rd rs1 (imm.signExtend 32)) ∧
    Computes (.sltiu rd rs1 (imm.signExtend 32)) s rd
      (if ((s.reg rs1).toNat : Int) < imm.toInt % 2 ^ 32 then 1#32 else 0#32)

/-- `andi`, `ori`, `xori` (R140 to R142): bit by bit with the sign-extended immediate, whose bits 31 to 11 equal its sign. -/
def Obligations.BitwiseLogicImmediate : Prop :=
  ∀ (rd rs1 : Reg) (imm : BitVec 12) (s : State),
    EncodedAs (imm ++ rs1 ++ 0b111#3 ++ rd ++ 0b0010011#7) 0x0000707f#32 0x00007013#32 (.andi rd rs1 (imm.signExtend 32)) ∧
    (∃ v, (∀ k < 32, v.getLsbD k = ((s.reg rs1).getLsbD k && imm.getLsbD (min k 11))) ∧
      Computes (.andi rd rs1 (imm.signExtend 32)) s rd v) ∧
    EncodedAs (imm ++ rs1 ++ 0b110#3 ++ rd ++ 0b0010011#7) 0x0000707f#32 0x00006013#32 (.ori rd rs1 (imm.signExtend 32)) ∧
    (∃ v, (∀ k < 32, v.getLsbD k = ((s.reg rs1).getLsbD k || imm.getLsbD (min k 11))) ∧
      Computes (.ori rd rs1 (imm.signExtend 32)) s rd v) ∧
    EncodedAs (imm ++ rs1 ++ 0b100#3 ++ rd ++ 0b0010011#7) 0x0000707f#32 0x00004013#32 (.xori rd rs1 (imm.signExtend 32)) ∧
    (∃ v, (∀ k < 32, v.getLsbD k = ((s.reg rs1).getLsbD k ^^ imm.getLsbD (min k 11))) ∧
      Computes (.xori rd rs1 (imm.signExtend 32)) s rd v)

/-- `slli`, `srli`, `srai` (R143 to R145): shift by the 5-bit constant; with another upper field the word is illegal. -/
def Obligations.ConstantShifts : Prop :=
  ∀ (rd rs1 : Reg) (shamt : BitVec 5) (s : State),
    EncodedAs (0b0000000#7 ++ shamt ++ rs1 ++ 0b001#3 ++ rd ++ 0b0010011#7) 0xfe00707f#32 0x00001013#32
      (.slli rd rs1 (shamt.setWidth 32)) ∧
    Computes (.slli rd rs1 (shamt.setWidth 32)) s rd (BitVec.ofNat 32 ((s.reg rs1).toNat * 2 ^ shamt.toNat)) ∧
    EncodedAs (0b0000000#7 ++ shamt ++ rs1 ++ 0b101#3 ++ rd ++ 0b0010011#7) 0xfe00707f#32 0x00005013#32
      (.srli rd rs1 (shamt.setWidth 32)) ∧
    Computes (.srli rd rs1 (shamt.setWidth 32)) s rd (BitVec.ofNat 32 ((s.reg rs1).toNat / 2 ^ shamt.toNat)) ∧
    EncodedAs (0b0100000#7 ++ shamt ++ rs1 ++ 0b101#3 ++ rd ++ 0b0010011#7) 0xfe00707f#32 0x40005013#32
      (.srai rd rs1 (shamt.setWidth 32)) ∧
    (∃ v : Word, v.toInt = (s.reg rs1).toInt / 2 ^ shamt.toNat ∧ Computes (.srai rd rs1 (shamt.setWidth 32)) s rd v) ∧
    (∀ upper : BitVec 7, upper ≠ 0b0000000#7 →
      ∀ w : Word, w = upper ++ shamt ++ rs1 ++ 0b001#3 ++ rd ++ 0b0010011#7 → decode w = .error (.illegalInstruction w)) ∧
    (∀ upper : BitVec 7, upper ≠ 0b0000000#7 → upper ≠ 0b0100000#7 →
      ∀ w : Word, w = upper ++ shamt ++ rs1 ++ 0b101#3 ++ rd ++ 0b0010011#7 → decode w = .error (.illegalInstruction w))

/-! ## Loads -/

/-- `lw` (R132): encoding, the four bytes little-endian, frame, and both exceptions. -/
def Obligations.LoadWord : Prop :=
  ∀ (rd rs1 : Reg) (imm : BitVec 12) (s : State) (a : Word), a = effectiveAddress s rs1 (imm.signExtend 32) →
    EncodedAs (imm ++ rs1 ++ 0b010#3 ++ rd ++ 0b0000011#7) 0x0000707f#32 0x00002003#32 (.lw rd rs1 (imm.signExtend 32)) ∧
    LoadBehaviour (.lw rd rs1 (imm.signExtend 32)) s rd a 4 (wordAt s.mem a.toNat)

/-- `lh` and `lhu` (R133, R134): the two bytes little-endian, sign-extended or zero-extended. -/
def Obligations.LoadHalfWord : Prop :=
  ∀ (rd rs1 : Reg) (imm : BitVec 12) (s : State) (a : Word), a = effectiveAddress s rs1 (imm.signExtend 32) →
    EncodedAs (imm ++ rs1 ++ 0b001#3 ++ rd ++ 0b0000011#7) 0x0000707f#32 0x00001003#32 (.lh rd rs1 (imm.signExtend 32)) ∧
    LoadBehaviour (.lh rd rs1 (imm.signExtend 32)) s rd a 2
      (BitVec.ofInt 32 (s.mem.read (a.toNat + 1) ++ s.mem.read a.toNat).toInt) ∧
    EncodedAs (imm ++ rs1 ++ 0b101#3 ++ rd ++ 0b0000011#7) 0x0000707f#32 0x00005003#32 (.lhu rd rs1 (imm.signExtend 32)) ∧
    LoadBehaviour (.lhu rd rs1 (imm.signExtend 32)) s rd a 2
      (BitVec.ofNat 32 (s.mem.read (a.toNat + 1) ++ s.mem.read a.toNat).toNat)

/-- `lb` and `lbu` (R135, R136): the byte, sign-extended or zero-extended; every address is aligned. -/
def Obligations.LoadByte : Prop :=
  ∀ (rd rs1 : Reg) (imm : BitVec 12) (s : State) (a : Word), a = effectiveAddress s rs1 (imm.signExtend 32) →
    EncodedAs (imm ++ rs1 ++ 0b000#3 ++ rd ++ 0b0000011#7) 0x0000707f#32 0x00000003#32 (.lb rd rs1 (imm.signExtend 32)) ∧
    ByteLoadBehaviour (.lb rd rs1 (imm.signExtend 32)) s rd a (BitVec.ofInt 32 (s.mem.read a.toNat).toInt) ∧
    EncodedAs (imm ++ rs1 ++ 0b100#3 ++ rd ++ 0b0000011#7) 0x0000707f#32 0x00004003#32 (.lbu rd rs1 (imm.signExtend 32)) ∧
    ByteLoadBehaviour (.lbu rd rs1 (imm.signExtend 32)) s rd a (BitVec.ofNat 32 (s.mem.read a.toNat).toNat)

/-! ## Stores -/

/-- `sw` (R161): encoding, the four bytes of `x[rs2]` at the effective address, frame, and both exceptions. -/
def Obligations.StoreWord : Prop :=
  ∀ (rs2 rs1 : Reg) (hi : BitVec 7) (lo : BitVec 5) (s : State) (imm : Word), imm = (hi ++ lo : BitVec 12).signExtend 32 →
    EncodedAs (hi ++ rs2 ++ rs1 ++ 0b010#3 ++ lo ++ 0b0100011#7) 0x0000707f#32 0x00002023#32 (.sw rs2 rs1 imm) ∧
    StoreBehaviour (.sw rs2 rs1 imm) s (effectiveAddress s rs1 imm) 4 (s.reg rs2)

/-- `sh` (R162): the two low bytes of `x[rs2]`. -/
def Obligations.StoreHalfWord : Prop :=
  ∀ (rs2 rs1 : Reg) (hi : BitVec 7) (lo : BitVec 5) (s : State) (imm : Word), imm = (hi ++ lo : BitVec 12).signExtend 32 →
    EncodedAs (hi ++ rs2 ++ rs1 ++ 0b001#3 ++ lo ++ 0b0100011#7) 0x0000707f#32 0x00001023#32 (.sh rs2 rs1 imm) ∧
    StoreBehaviour (.sh rs2 rs1 imm) s (effectiveAddress s rs1 imm) 2 (s.reg rs2)

/-- `sb` (R163): the low byte of `x[rs2]`; every address is aligned. -/
def Obligations.StoreByte : Prop :=
  ∀ (rs2 rs1 : Reg) (hi : BitVec 7) (lo : BitVec 5) (s : State) (imm : Word), imm = (hi ++ lo : BitVec 12).signExtend 32 →
    EncodedAs (hi ++ rs2 ++ rs1 ++ 0b000#3 ++ lo ++ 0b0100011#7) 0x0000707f#32 0x00000023#32 (.sb rs2 rs1 imm) ∧
    ByteStoreBehaviour (.sb rs2 rs1 imm) s (effectiveAddress s rs1 imm) (s.reg rs2)

/-! ## Type U -/

/-- `lui` and `auipc` (R171, R172): the 20 bits in bits 31 to 12 over twelve zeros, absolute or added to the instruction's own
address. -/
def Obligations.UpperImmediates : Prop :=
  ∀ (rd : Reg) (uimm : BitVec 20) (s : State),
    EncodedAs (uimm ++ rd ++ 0b0110111#7) 0x0000007f#32 0x00000037#32 (.lui rd (uimm ++ 0#12)) ∧
    Computes (.lui rd (uimm ++ 0#12)) s rd (BitVec.ofNat 32 (uimm.toNat * 4096)) ∧
    EncodedAs (uimm ++ rd ++ 0b0010111#7) 0x0000007f#32 0x00000017#32 (.auipc rd (uimm ++ 0#12)) ∧
    Computes (.auipc rd (uimm ++ 0#12)) s rd (BitVec.ofNat 32 ((s.pc.toNat + uimm.toNat * 4096) % 2 ^ 32))

/-! ## Branches and jumps -/

/-- `beq` and `bne` (R181, R182). -/
def Obligations.EqualityBranches : Prop :=
  ∀ (rs1 rs2 : Reg) (i12 : BitVec 1) (i10_5 : BitVec 6) (i4_1 : BitVec 4) (i11 : BitVec 1) (s : State),
    EncodedAs (branchWord i12 i10_5 rs2 rs1 0b000#3 i4_1 i11) 0x0000707f#32 0x00000063#32
      (.beq rs1 rs2 (branchImm i12 i10_5 i4_1 i11)) ∧
    BranchBehaviour (.beq rs1 rs2 (branchImm i12 i10_5 i4_1 i11)) s (∀ k < 32, (s.reg rs1).getLsbD k = (s.reg rs2).getLsbD k)
      (branchImm i12 i10_5 i4_1 i11) ∧
    EncodedAs (branchWord i12 i10_5 rs2 rs1 0b001#3 i4_1 i11) 0x0000707f#32 0x00001063#32
      (.bne rs1 rs2 (branchImm i12 i10_5 i4_1 i11)) ∧
    BranchBehaviour (.bne rs1 rs2 (branchImm i12 i10_5 i4_1 i11)) s (∃ k < 32, (s.reg rs1).getLsbD k ≠ (s.reg rs2).getLsbD k)
      (branchImm i12 i10_5 i4_1 i11)

/-- `blt` and `bge` (R183, R184): two's-complement comparison. -/
def Obligations.SignedBranches : Prop :=
  ∀ (rs1 rs2 : Reg) (i12 : BitVec 1) (i10_5 : BitVec 6) (i4_1 : BitVec 4) (i11 : BitVec 1) (s : State),
    EncodedAs (branchWord i12 i10_5 rs2 rs1 0b100#3 i4_1 i11) 0x0000707f#32 0x00004063#32
      (.blt rs1 rs2 (branchImm i12 i10_5 i4_1 i11)) ∧
    BranchBehaviour (.blt rs1 rs2 (branchImm i12 i10_5 i4_1 i11)) s ((s.reg rs1).toInt < (s.reg rs2).toInt)
      (branchImm i12 i10_5 i4_1 i11) ∧
    EncodedAs (branchWord i12 i10_5 rs2 rs1 0b101#3 i4_1 i11) 0x0000707f#32 0x00005063#32
      (.bge rs1 rs2 (branchImm i12 i10_5 i4_1 i11)) ∧
    BranchBehaviour (.bge rs1 rs2 (branchImm i12 i10_5 i4_1 i11)) s ((s.reg rs2).toInt ≤ (s.reg rs1).toInt)
      (branchImm i12 i10_5 i4_1 i11)

/-- `bltu` and `bgeu` (R185, R186): unsigned comparison. -/
def Obligations.UnsignedBranches : Prop :=
  ∀ (rs1 rs2 : Reg) (i12 : BitVec 1) (i10_5 : BitVec 6) (i4_1 : BitVec 4) (i11 : BitVec 1) (s : State),
    EncodedAs (branchWord i12 i10_5 rs2 rs1 0b110#3 i4_1 i11) 0x0000707f#32 0x00006063#32
      (.bltu rs1 rs2 (branchImm i12 i10_5 i4_1 i11)) ∧
    BranchBehaviour (.bltu rs1 rs2 (branchImm i12 i10_5 i4_1 i11)) s ((s.reg rs1).toNat < (s.reg rs2).toNat)
      (branchImm i12 i10_5 i4_1 i11) ∧
    EncodedAs (branchWord i12 i10_5 rs2 rs1 0b111#3 i4_1 i11) 0x0000707f#32 0x00007063#32
      (.bgeu rs1 rs2 (branchImm i12 i10_5 i4_1 i11)) ∧
    BranchBehaviour (.bgeu rs1 rs2 (branchImm i12 i10_5 i4_1 i11)) s ((s.reg rs2).toNat ≤ (s.reg rs1).toNat)
      (branchImm i12 i10_5 i4_1 i11)

/-- `jal` (R191): the target relative to the instruction's own address, the link value, and the exception of a misaligned target,
which writes nothing. -/
def Obligations.JumpAndLink : Prop :=
  ∀ (rd : Reg) (i20 : BitVec 1) (i10_1 : BitVec 10) (i11 : BitVec 1) (i19_12 : BitVec 8) (s : State) (imm : Word),
    imm = (i20 ++ i19_12 ++ i11 ++ i10_1 ++ 0#1 : BitVec 21).signExtend 32 →
    EncodedAs (i20 ++ i10_1 ++ i11 ++ i19_12 ++ rd ++ 0b1101111#7) 0x0000007f#32 0x0000006f#32 (.jal rd imm) ∧
    JumpBehaviour (.jal rd imm) s rd (BitVec.ofInt 32 (s.pc.toNat + imm.toInt))

/-- `jalr` (R131): the target is the sum from the old `x[rs1]` with bit 0 cleared. -/
def Obligations.JumpAndLinkRegister : Prop :=
  ∀ (rd rs1 : Reg) (imm : BitVec 12) (s : State),
    EncodedAs (imm ++ rs1 ++ 0b000#3 ++ rd ++ 0b1100111#7) 0x0000707f#32 0x00000067#32 (.jalr rd rs1 (imm.signExtend 32)) ∧
    JumpBehaviour (.jalr rd rs1 (imm.signExtend 32)) s rd
      (BitVec.ofNat 32 ((s.reg rs1 + imm.signExtend 32).toNat / 2 * 2))

/-! ## The step -/

/-- When the four bytes at the pc decode to an instruction, a step is that instruction's meaning and nothing around it: the meaning
itself moves the pc (R15, R16). -/
def Obligations.StepRunsTheDecodedInstruction : Prop :=
  ∀ (s : State) (i : Instr), CanFetch s → decode (wordAt s.mem s.pc.toNat) = .ok i → step s = exec i s

/-- The checks of a fetch and of decoding, in the order of R204; what is raised names the pc or the word (R43, R87). -/
def Obligations.FetchChecksInOrder : Prop :=
  ∀ s : State, s.status = .running → s.pc ≠ s.platform.endPc →
    (s.pc.toNat % 4 ≠ 0 → step s = .next { s with status := .faulted .instructionAddressMisaligned s.pc s.pc }) ∧
    (s.pc.toNat % 4 = 0 → ¬ Accessible s .fetch s.pc.toNat 4 →
      step s = .next { s with status := .faulted .instructionAccessFault s.pc s.pc }) ∧
    (s.pc.toNat % 4 = 0 → Accessible s .fetch s.pc.toNat 4 → (∀ i, decode (wordAt s.mem s.pc.toNat) ≠ .ok i) →
      step s = .next { s with status := .faulted .illegalInstruction s.pc (wordAt s.mem s.pc.toNat) })

/-- A word that matches no row of R85 raises `IllegalInstruction(w)` when it is fetched for execution and changes nothing else; the
words R87 lists are such words. -/
def Obligations.UnlistedWordsAreIllegal : Prop :=
  (∀ s : State, CanFetch s → (∀ row ∈ opcodeTable, wordAt s.mem s.pc.toNat &&& row.mask ≠ row.pattern) →
    step s = .next { s with status := .faulted .illegalInstruction s.pc (wordAt s.mem s.pc.toNat) }) ∧
  (∀ w : Word,
    (w = 0x00000000#32 ∨ w = 0xffffffff#32 ∨ w.extractLsb' 0 2 ≠ 0b11#2 ∨
      w.extractLsb' 0 7 ∈ [0b0001111#7, 0b1110011#7, 0b0101111#7, 0b0000111#7, 0b0100111#7, 0b1000011#7, 0b1000111#7, 0b1001011#7,
        0b1001111#7, 0b1010011#7, 0b0001011#7, 0b0101011#7, 0b1011011#7, 0b1111011#7] ∨
      (w.extractLsb' 0 7 = 0b0110011#7 ∧ w.extractLsb' 25 7 = 0b0000001#7)) →
    ∀ row ∈ opcodeTable, w &&& row.mask ≠ row.pattern)

/-- A running machine whose pc is `END_PC` halts: only the status changes, whatever stands at `END_PC`, and no step leaves the halted
state (R242, R31). -/
def Obligations.MachineHaltsAtEndPc : Prop :=
  ∀ s : State, s.status = .running → s.pc = s.platform.endPc →
    step s = .next { s with status := .halted } ∧ step { s with status := .halted } = .fault .stepAfterHalt

/-- A running machine always has a next state and no other machine has one: `Halted` and `Faulted` are absorbing, each stops under its
own name, and nothing is refused (R16, R31). -/
def Obligations.OnlyARunningMachineSteps : Prop :=
  ∀ s : State,
    ((∃ t, step s = .next t) ↔ s.status = .running) ∧
    (step s = .fault .stepAfterHalt ↔ s.status = .halted) ∧
    (step s = .fault .stepAfterException ↔ ∃ e p info, s.status = .faulted e p info) ∧
    (∀ r, step s ≠ .refused r)

/-- Exceptions are precise and fatal (R14, R203): a step that ends in `Faulted` has changed nothing but the status, which names the pc
of the instruction that raised, and no later step exists. -/
def Obligations.ExceptionsArePrecise : Prop :=
  ∀ (s t : State) (e : Exception) (p info : Word),
    step s = .next t → t.status = .faulted e p info →
      t = { s with status := .faulted e s.pc info } ∧ step t = .fault .stepAfterException

/-- `x0` reads as zero in every state, a write to it is discarded, and an instruction with `rd = x0` performs all its other effects: with any other destination it
would have given the same state but for the registers, which it leaves as they were (R21). -/
def Obligations.ZeroDestinationLosesOnlyTheResult : Prop :=
  (∀ s : State, s.reg 0#5 = 0#32 ∧ ∀ v, s.setReg 0#5 v = s) ∧
  (∀ (i : Instr) (s t : State), exec i s = .next t → exec (withDestination 0#5 i) s = .next { t with regs := s.regs })

/-- A step changes no register but the destination of the instruction it runs (R12). -/
def Obligations.OnlyTheDestinationRegisterChanges : Prop :=
  ∀ (s t : State) (r : Reg), step s = .next t → t.reg r ≠ s.reg r →
    CanFetch s ∧ ∃ i, decode (wordAt s.mem s.pc.toNat) = .ok i ∧ destination i = some r

/-- A byte of memory changes in a step only if the instruction run is a store whose bytes, at the address its meaning computes, include
it, and only if it is writable (R40, R42, R47). -/
def Obligations.ChangedBytesWereStoredTo : Prop :=
  ∀ (s t : State) (x : Nat), step s = .next t → t.mem.read x ≠ s.mem.read x →
    permits (permAt s.platform x) .store = true ∧
    ∃ i a n, decode (wordAt s.mem s.pc.toNat) = .ok i ∧ storedBytes s i = some (a, n) ∧ a ≤ x ∧ x < a + n

/-- No run changes a byte that may be fetched: self-modifying code is refused (R54). No byte is both writable and executable (R41). -/
def Obligations.ExecutableMemoryNeverChanges : Prop :=
  (∀ (p : Platform) (a : Nat), ¬ (permits (permAt p a) .store = true ∧ permits (permAt p a) .fetch = true)) ∧
  (∀ (s t : State) (a : Nat), Reaches s t → permits (permAt s.platform a) .fetch = true → t.mem.read a = s.mem.read a)

/-- `MEM_MAP` and `END_PC` are fixed for the whole run (R41, R242). -/
def Obligations.ParametersNeverChange : Prop :=
  ∀ s t : State, Reaches s t → t.platform = s.platform

/-- From an aligned pc a run only ever has an aligned pc (R25). -/
def Obligations.PcStaysAligned : Prop :=
  ∀ s t : State, s.pc.toNat % 4 = 0 → Reaches s t → t.pc.toNat % 4 = 0

/-! ## The machine's invariant, reset and launch -/

/-- Every step keeps the machine legal: memory canonical and only where `MEM_MAP` has memory, the pc aligned, and the status truthful:
a halted machine stands at `END_PC`, a faulted one at the instruction that raised, with the `info` R200 gives its exception. (The
canonical form of the memory's list is the model's own, log entry 7.) -/
def Obligations.StepKeepsTheMachineLegal : Prop :=
  ∀ s t : State, LegalState s → step s = .next t → LegalState t

/-- The state after reset is legal. (The parameter values reset is built from are the model's choice, log entries 2, 3, 4, 6 and 7; that
they satisfy R240 is what this says.) -/
def Obligations.ResetIsLegal : Prop := LegalState State.reset

/-- The start state is what R240 says it is for every choice of the parameters. Three clauses are the model's and not R240's: that
parameters which are not multiples of 4, as R240 says they must be, give no machine (log entry 22, DEDUCED); that the first of two
`INIT_MEM` pairs for an address gives its byte (log entry 21, DESIGN CHOICE); and that a mapped byte no pair names reads as
`Config.unlistedByte` (log entry 7, DESIGN CHOICE). -/
def Obligations.LaunchBuildsTheStartState : Prop :=
  ∀ p : LaunchParams,
    ((p.resetPc.toNat % 4 = 0 ∧ p.endPc.toNat % 4 = 0) → ∃ s, launch p = some s ∧
      s.pc = p.resetPc ∧ s.reg 0#5 = 0#32 ∧ (∀ r : Reg, r ≠ 0#5 → p.initRegs.toList[r.toNat - 1]? = some (s.reg r)) ∧
      (∀ a, permAt ⟨p.memMap, p.endPc⟩ a ≠ .none → s.mem.read a = (p.initMem.lookup a).getD Config.unlistedByte) ∧
      (∀ c ∈ s.mem, permAt ⟨p.memMap, p.endPc⟩ c.1 ≠ .none) ∧
      s.status = .running ∧ s.platform.memMap = p.memMap ∧ s.platform.endPc = p.endPc) ∧
    (¬ (p.resetPc.toNat % 4 = 0 ∧ p.endPc.toNat % 4 = 0) → launch p = none)

/-- Every state of every run from a launched start state is legal. -/
def Obligations.LaunchedRunsStayLegal : Prop :=
  ∀ (p : LaunchParams) (s t : State), launch p = some s → Reaches s t → LegalState t

/-- The model's choice (log entries 2, 3, 4, 6, 7): the state after reset is the launch at the parameter values of `Config.lean`. -/
def Obligations.ResetIsALaunch : Prop :=
  launch ⟨0x00001000#32, 0x00000000#32, [⟨0x1000, 0x1000, .rx⟩, ⟨0x2000, 0x1000, .rw⟩], [], Vector.replicate 31 0#32⟩ =
    some State.reset

/-- A program image put first into `INIT_MEM` at a mapped place is what `wordAt` reads there in the start state: word `k` stands
little-endian at `base + 4k` (R241 (a)). That the image wins over a later pair of `INIT_MEM` for the same address is the model's choice
and not R241's: the first pair gives the byte (log entry 21, DESIGN CHOICE). -/
def Obligations.LoadedImageReadsBack : Prop :=
  ∀ (p : LaunchParams) (s : State) (base : Nat) (ws : List Word) (rest : List Host.Cell),
    p.initMem = imageCells base ws ++ rest → launch p = some s →
    (∀ a, base ≤ a → a < base + 4 * ws.length → permAt s.platform a ≠ .none) →
    ∀ (k : Nat) (w : Word), ws[k]? = some w → wordAt s.mem (base + 4 * k) = w

/-! ## Memory -/

/-- Memories in canonical form that hold the same bytes are the same data. (The form, and what an unlisted byte reads as, are the
model's choice, log entry 7; the statement holds for whatever byte that is.) -/
def Obligations.CanonicalMemoriesAreTheirBytes : Prop :=
  ∀ m m' : Memory, m.wf → m'.wf → (∀ a, m.read a = m'.read a) → m = m'

/-- Accesses of different widths to the same bytes (R56): after `sw` of a word at `A`, in memory that is readable and writable, `lw` at
`A` reads the word, `lb` at `A` its low byte sign-extended, `lbu` at `A + 3` its high byte, `lhu` at `A + 2` its high half; and after a
further `sb` at `A + 1`, `lw` at `A` reads the word with that byte replaced. -/
def Obligations.MixedWidthAccesses : Prop :=
  ∀ (rs2 rs1 : Reg) (imm : Word) (s : State) (a : Word), a = effectiveAddress s rs1 imm → a.toNat % 4 = 0 →
    Accessible s .store a.toNat 4 → Accessible s .load a.toNat 4 →
    ∃ t, exec (.sw rs2 rs1 imm) s = .next t ∧
      (∀ (rd b : Reg) (off : Word), rd ≠ 0#5 →
        (effectiveAddress t b off = a → ∃ u, exec (.lw rd b off) t = .next u ∧ u.reg rd = s.reg rs2) ∧
        (effectiveAddress t b off = a → ∃ u, exec (.lb rd b off) t = .next u ∧
          u.reg rd = ((s.reg rs2).extractLsb' 0 8).signExtend 32) ∧
        (effectiveAddress t b off = a + 3#32 → ∃ u, exec (.lbu rd b off) t = .next u ∧
          u.reg rd = ((s.reg rs2).extractLsb' 24 8).setWidth 32) ∧
        (effectiveAddress t b off = a + 2#32 → ∃ u, exec (.lhu rd b off) t = .next u ∧
          u.reg rd = ((s.reg rs2).extractLsb' 16 16).setWidth 32)) ∧
      (∀ (q b : Reg) (off : Word), effectiveAddress t b off = a + 1#32 →
        ∃ u, exec (.sb q b off) t = .next u ∧
          ∀ (rd c : Reg) (off' : Word), rd ≠ 0#5 → effectiveAddress u c off' = a →
            ∃ v, exec (.lw rd c off') u = .next v ∧
              v.reg rd = (s.reg rs2).extractLsb' 16 16 ++ (t.reg q).extractLsb' 0 8 ++ (s.reg rs2).extractLsb' 0 8)

/-- Bytes that no load and no fetch may read have no influence on a step: two states that differ only there take the same step, to
states that again differ only there (R41: what `r` and `x` permit is all that is read). The spec draws no such conclusion itself: it follows from R41 to R43. -/
def Obligations.UnreadableMemoryIsNotObserved : Prop :=
  ∀ s s' t : State, SameVisible s s' → step s = .next t → ∃ t', step s' = .next t' ∧ SameVisible t t'

/-- A jump into memory that is absent or not executable is not reported on the jump: `jal`, `jalr` and every taken branch complete,
and the fetch that follows raises `InstructionAccessFault` at the target (R43, R44). -/
def Obligations.JumpIntoAbsentMemoryFaultsOnFetch : Prop :=
  ∀ (s : State) (i : Instr) (target : Word), s.status = .running → TransfersTo s target i → target.toNat % 4 = 0 →
    target ≠ s.platform.endPc → ¬ Accessible s .fetch target.toNat 4 →
    ∃ t, exec i s = .next t ∧ t.pc = target ∧ t.status = .running ∧
      step t = .next { t with status := .faulted .instructionAccessFault target target }

/-! ## Assembly language -/

/-- Whatever the assembler accepts has an encoding: every instruction of an accepted program is well-formed, so decoding its word gives
it back (R91: never a silent truncation). -/
def Obligations.AssembledInstructionsAreWellFormed : Prop :=
  ∀ (base : Word) (lines : List (List Char)) (is : List Instr), assemble base lines = .ok is →
    ∀ i ∈ is, i.wellFormed = true

/-- A label in the place of a `jal` or branch offset stands for its address less the instruction's own (R90): the assembled offset
added to the instruction's address is the label's address. -/
def Obligations.LabelsAreByteOffsets : Prop :=
  ∀ (labels : Labels) (here a imm : Word) (name : List Char), parseNumber name = none → labels.lookup name = some a →
    (parseTarget checkJump labels here name = .ok imm → here + imm = a) ∧
    (parseTarget checkBranch labels here name = .ok imm → here + imm = a)

/-- The assembler knows the 37 mnemonics of the table and no other, so no pseudo-instruction (R92, R1). -/
def Obligations.OnlyTheTablesMnemonics : Prop :=
  (∀ m : List Char, (formOf mnemonicForms m).isSome = true ↔ ∃ row ∈ opcodeTable, row.mnemonic.toList = m) ∧
  (∀ i : Instr, (formOf mnemonicForms i.mnemonic.toList).isSome = true)

/-- The operand ranges R91 enforces: a number is accepted exactly in its range, and what is accepted stands for that number. -/
def Obligations.OperandRangesAreEnforced : Prop :=
  ∀ n : Int,
    (∀ v, checkImm12 n = .ok v ↔ (-2048 ≤ n ∧ n ≤ 2047) ∧ v.toInt = n) ∧
    (∀ v, checkShamt n = .ok v ↔ (0 ≤ n ∧ n ≤ 31) ∧ v.toInt = n) ∧
    (∀ v, checkUpper n = .ok v ↔ (0 ≤ n ∧ n ≤ 1048575) ∧ (v.toNat : Int) = n * 4096) ∧
    (∀ v, checkBranch n = .ok v ↔ (n % 2 = 0 ∧ -4096 ≤ n ∧ n ≤ 4094) ∧ v.toInt = n) ∧
    (∀ v, checkJump n = .ok v ↔ (n % 2 = 0 ∧ -1048576 ≤ n ∧ n ≤ 1048574) ∧ v.toInt = n)

/-- Both spellings of each register of R22's table are that register, and no other text is a register. -/
def Obligations.RegisterNamesOfTheTable : Prop :=
  (∀ row ∈ registerTable, parseRegister row.2.1.toList = .ok row.1 ∧ parseRegister row.2.2.toList = .ok row.1) ∧
  (∀ (cs : List Char) (r : Reg), parseRegister cs = .ok r →
    ∃ row ∈ registerTable, row.1 = r ∧ (row.2.1.toList = cs ∨ row.2.2.toList = cs))

/-- The two program fragments of the source assemble to their words (`95_test_vectors.md` S6 to S8). -/
def Obligations.SourceFragmentsAssemble : Prop :=
  assembleText 0x1000#32 "LABEL: addi t0, t0, 1\nsub t2, zero, t2\nblt t0, t1, LABEL # comment" =
    .ok [0x00128293#32, 0x407003b3#32, 0xfe62cce3#32] ∧
  assembleText 0x1000#32 "LABEL: addi t0, t0, 1\nsub t2, zero, t2\njal ra, LABEL" =
    .ok [0x00128293#32, 0x407003b3#32, 0xff9ff0ef#32]
end

