-- ==== Sys2Proof/Laws/Memory.lean ====
section
/-! SUPPORT. Memory: reading after writing, the canonical form, and what the multi-byte accesses do byte by byte. -/

namespace Sys2Proof.Machine

/-! ## One byte -/

theorem Memory.read_erase (m : Memory) (a x : Nat) :
    (m.erase a).read x = if x = a then Config.unlistedByte else m.read x := by
  induction m with
  | nil => simp [Memory.erase, Memory.read]
  | cons c m ih =>
    obtain ⟨k, b⟩ := c
    unfold Memory.erase at ih ⊢
    by_cases hk : k = a
    · subst hk
      simp only [List.filter_cons, bne_self_eq_false, Bool.false_eq_true, if_false, ih, Memory.read]
      by_cases hx : x = k
      · simp [hx]
      · simp [hx, Ne.symm hx]
    · have : (k != a) = true := by simp [hk]
      simp only [List.filter_cons, this, if_true, Memory.read, ih]
      by_cases hx : k = x
      · subst hx; simp [hk]
      · simp [hx]

theorem Memory.read_insert (m : Memory) (a : Nat) (b : Byte) (x : Nat) (h : ∀ c ∈ m, c.1 ≠ a) :
    (m.insert a b).read x = if x = a then b else m.read x := by
  induction m with
  | nil => simp [Memory.insert, Memory.read, eq_comm]
  | cons c m ih =>
    obtain ⟨k, c⟩ := c
    have hk : k ≠ a := h (k, c) (by simp)
    have ih := ih fun d hd => h d (by simp [hd])
    unfold Memory.insert
    split
    · simp only [Memory.read]
      by_cases hx : x = a
      · simp [hx]
      · simp [hx, Ne.symm hx]
    · simp only [Memory.read, ih]
      by_cases hx : k = x
      · subst hx; simp [hk]
      · simp [hx]

theorem Memory.mem_erase {m : Memory} {a : Nat} {c : Host.Cell} : c ∈ m.erase a ↔ c ∈ m ∧ c.1 ≠ a := by
  simp [Memory.erase]

theorem Memory.mem_insert {m : Memory} {a : Nat} {b : Byte} {c : Host.Cell} :
    c ∈ m.insert a b ↔ c = (a, b) ∨ c ∈ m := by
  induction m with
  | nil => simp [Memory.insert]
  | cons d m ih =>
    obtain ⟨k, d⟩ := d
    unfold Memory.insert
    split
    · simp
    · simp only [List.mem_cons, ih]; tauto

/-- What every address reads after a write of one byte. -/
theorem Memory.read_write (m : Memory) (a : Nat) (b : Byte) (x : Nat) :
    (m.write a b).read x = if x = a then b else m.read x := by
  unfold Memory.write
  split
  · next h => rw [Memory.read_erase, h]
  · rw [Memory.read_insert _ _ _ _ fun c hc => (Memory.mem_erase.mp hc).2, Memory.read_erase]
    by_cases hx : x = a <;> simp [hx]

theorem Memory.read_write_self (m : Memory) (a : Nat) (b : Byte) : (m.write a b).read a = b := by
  simp [Memory.read_write]

theorem Memory.read_write_other (m : Memory) {a x : Nat} (b : Byte) (h : x ≠ a) : (m.write a b).read x = m.read x := by
  simp [Memory.read_write, h]

/-- The entries of a memory after a write are the new one and old ones. -/
theorem Memory.mem_write {m : Memory} {a : Nat} {b : Byte} {c : Host.Cell} (h : c ∈ m.write a b) : c = (a, b) ∨ c ∈ m := by
  unfold Memory.write at h
  split at h
  · exact .inr (Memory.mem_erase.mp h).1
  · rcases Memory.mem_insert.mp h with h | h
    · exact .inl h
    · exact .inr (Memory.mem_erase.mp h).1

/-! ## The canonical form -/

theorem Memory.wf_nil : Memory.wf [] := ⟨List.Pairwise.nil, by simp⟩

theorem Memory.wf_erase {m : Memory} (h : m.wf) (a : Nat) : (m.erase a).wf :=
  ⟨h.1.filter _, fun c hc => h.2 c (Memory.mem_erase.mp hc).1⟩

theorem Memory.wf_insert {m : Memory} (h : m.wf) {a : Nat} {b : Byte} (hb : b ≠ Config.unlistedByte) (ha : a < addressSpace)
    (hn : ∀ c ∈ m, c.1 ≠ a) : (m.insert a b).wf := by
  refine ⟨?_, fun c hc => ?_⟩
  · induction m with
    | nil => simp [Memory.insert]
    | cons d m ih =>
      obtain ⟨k, d⟩ := d
      have hp := List.pairwise_cons.mp h.1
      have hk : k ≠ a := hn (k, d) (by simp)
      unfold Memory.insert
      split
      · next hlt =>
        refine List.pairwise_cons.mpr ⟨fun c hc => ?_, h.1⟩
        rcases List.mem_cons.mp hc with rfl | hc
        · exact hlt
        · have := hp.1 c hc
          dsimp only at this ⊢
          omega
      · next hlt =>
        refine List.pairwise_cons.mpr ⟨fun c hc => ?_, ih ⟨hp.2, fun c hc => h.2 c (by simp [hc])⟩ fun c hc => hn c (by simp [hc])⟩
        rcases Memory.mem_insert.mp hc with rfl | hc
        · dsimp only; omega
        · exact hp.1 c hc
  · rcases Memory.mem_insert.mp hc with rfl | hc
    · exact ⟨hb, ha⟩
    · exact h.2 c hc

/-- A write inside the address space keeps the canonical form. -/
theorem Memory.wf_write {m : Memory} (h : m.wf) {a : Nat} (ha : a < addressSpace) (b : Byte) : (m.write a b).wf := by
  unfold Memory.write
  split
  · exact Memory.wf_erase h a
  · next hb => exact Memory.wf_insert (Memory.wf_erase h a) hb ha fun c hc => (Memory.mem_erase.mp hc).2

/-- An address below every entry reads as unlisted. -/
theorem Memory.read_of_lt {m : Memory} {a : Nat} (h : ∀ c ∈ m, a < c.1) : m.read a = Config.unlistedByte := by
  induction m with
  | nil => rfl
  | cons d m ih =>
    obtain ⟨k, d⟩ := d
    have : k ≠ a := by have := h (k, d) (by simp); dsimp only at this; omega
    simp only [Memory.read, this, if_false]
    exact ih fun c hc => h c (by simp [hc])

/-! ## Several bytes -/

/-- What every address reads after a little-endian write of `n` bytes (`20_memory.md` R42). -/
theorem read_writeLE (m : Memory) (a : Nat) (v : Word) (n x : Nat) :
    (writeLE m a v n).read x = if a ≤ x ∧ x < a + n then v.extractLsb' (8 * (x - a)) 8 else m.read x := by
  induction n with
  | zero =>
    have : ¬ (a ≤ x ∧ x < a + 0) := by omega
    rw [if_neg this]; rfl
  | succ n ih =>
    rw [writeLE, Memory.read_write, ih]
    by_cases hx : x = a + n
    · subst hx; simp
    · by_cases hr : a ≤ x ∧ x < a + n
      · have : a ≤ x ∧ x < a + (n + 1) := by omega
        simp [hx, hr, this]
      · have : ¬ (a ≤ x ∧ x < a + (n + 1)) := by omega
        simp [hx, hr, this]

theorem read_writeLE_outside (m : Memory) {a n x : Nat} (v : Word) (h : x < a ∨ a + n ≤ x) :
    (writeLE m a v n).read x = m.read x := by
  have : ¬ (a ≤ x ∧ x < a + n) := by omega
  rw [read_writeLE, if_neg this]

/-- The entries after a little-endian write lie in the bytes written or were there. -/
theorem mem_writeLE {m : Memory} {a n : Nat} {v : Word} {c : Host.Cell} (h : c ∈ writeLE m a v n) :
    (a ≤ c.1 ∧ c.1 < a + n) ∨ c ∈ m := by
  induction n with
  | zero => exact .inr h
  | succ n ih =>
    rcases Memory.mem_write h with rfl | h
    · exact .inl ⟨by dsimp only; omega, by dsimp only; omega⟩
    · rcases ih h with h | h
      · exact .inl ⟨h.1, by omega⟩
      · exact .inr h

/-- A little-endian write inside the address space keeps the canonical form. -/
theorem wf_writeLE {m : Memory} (h : m.wf) {a n : Nat} (ha : a + n ≤ addressSpace) (v : Word) : (writeLE m a v n).wf := by
  induction n with
  | zero => exact h
  | succ n ih => exact Memory.wf_write (ih (by omega)) (by omega) _

/-- A little-endian read depends on the bytes it reads alone. -/
theorem readLE_congr {m m' : Memory} {a : Nat} {w : Width} (h : ∀ i < w.bytes, m.read (a + i) = m'.read (a + i)) :
    readLE m a w = readLE m' a w := by
  cases w with
  | byte => have := h 0 (by decide); simp_all [readLE]
  | half => have h0 := h 0 (by decide); have h1 := h 1 (by decide); simp_all [readLE]
  | word =>
    have h0 := h 0 (by decide); have h1 := h 1 (by decide); have h2 := h 2 (by decide); have h3 := h 3 (by decide)
    simp_all [readLE]

end Sys2Proof.Machine
end

