-- ==== Sys2Proof/Laws/State.lean ====
section
/-! SUPPORT. What each update of the state does to each field: one lemma per field per update. Cite these; do not unfold a record
update. -/

namespace Sys2Proof.Machine

/-! `setPc` -/
@[simp] theorem State.setPc_pc (s : State) (t : Word) : (s.setPc t).pc = t := rfl
@[simp] theorem State.setPc_regs (s : State) (t : Word) : (s.setPc t).regs = s.regs := rfl
@[simp] theorem State.setPc_mem (s : State) (t : Word) : (s.setPc t).mem = s.mem := rfl
@[simp] theorem State.setPc_status (s : State) (t : Word) : (s.setPc t).status = s.status := rfl
@[simp] theorem State.setPc_platform (s : State) (t : Word) : (s.setPc t).platform = s.platform := rfl

/-! `advance` -/
@[simp] theorem State.advance_pc (s : State) : s.advance.pc = s.pc + 4#32 := rfl
@[simp] theorem State.advance_regs (s : State) : s.advance.regs = s.regs := rfl
@[simp] theorem State.advance_mem (s : State) : s.advance.mem = s.mem := rfl
@[simp] theorem State.advance_status (s : State) : s.advance.status = s.status := rfl
@[simp] theorem State.advance_platform (s : State) : s.advance.platform = s.platform := rfl

/-! `raise` -/
@[simp] theorem State.raise_pc (s : State) (r : Raised) : (s.raise r).pc = s.pc := rfl
@[simp] theorem State.raise_regs (s : State) (r : Raised) : (s.raise r).regs = s.regs := rfl
@[simp] theorem State.raise_mem (s : State) (r : Raised) : (s.raise r).mem = s.mem := rfl
@[simp] theorem State.raise_status (s : State) (r : Raised) : (s.raise r).status = .faulted r.exception s.pc r.info := rfl
@[simp] theorem State.raise_platform (s : State) (r : Raised) : (s.raise r).platform = s.platform := rfl

/-! `halt` -/
@[simp] theorem State.halt_pc (s : State) : s.halt.pc = s.pc := rfl
@[simp] theorem State.halt_regs (s : State) : s.halt.regs = s.regs := rfl
@[simp] theorem State.halt_mem (s : State) : s.halt.mem = s.mem := rfl
@[simp] theorem State.halt_status (s : State) : s.halt.status = .halted := rfl
@[simp] theorem State.halt_platform (s : State) : s.halt.platform = s.platform := rfl

/-! `setReg` -/
@[simp] theorem State.setReg_pc (s : State) (r : Reg) (v : Word) : (s.setReg r v).pc = s.pc := by
  unfold State.setReg; split <;> rfl
@[simp] theorem State.setReg_mem (s : State) (r : Reg) (v : Word) : (s.setReg r v).mem = s.mem := by
  unfold State.setReg; split <;> rfl
@[simp] theorem State.setReg_status (s : State) (r : Reg) (v : Word) : (s.setReg r v).status = s.status := by
  unfold State.setReg; split <;> rfl
@[simp] theorem State.setReg_platform (s : State) (r : Reg) (v : Word) : (s.setReg r v).platform = s.platform := by
  unfold State.setReg; split <;> rfl

/-! Registers as the accessor reads them -/

/-- `x0` reads as zero (`10_state.md` R21). -/
@[simp] theorem State.reg_zero (s : State) : s.reg 0#5 = 0#32 := rfl

/-- The accessor reads the register file alone. -/
theorem State.reg_congr {s t : State} (h : s.regs = t.regs) (r : Reg) : s.reg r = t.reg r := by
  unfold State.reg; simp only [h]

@[simp] theorem State.reg_setPc (s : State) (t : Word) (r : Reg) : (s.setPc t).reg r = s.reg r := rfl
@[simp] theorem State.reg_advance (s : State) (r : Reg) : s.advance.reg r = s.reg r := rfl
@[simp] theorem State.reg_raise (s : State) (e : Raised) (r : Reg) : (s.raise e).reg r = s.reg r := rfl
@[simp] theorem State.reg_halt (s : State) (r : Reg) : s.halt.reg r = s.reg r := rfl

/-- A write to `x0` is discarded (R21). -/
@[simp] theorem State.setReg_zero (s : State) (v : Word) : s.setReg 0#5 v = s := rfl

/-- A register other than `x0` reads as it was written. -/
theorem State.reg_setReg_self (s : State) {r : Reg} (h : r ≠ 0#5) (v : Word) : (s.setReg r v).reg r = v := by
  simp [State.reg, State.setReg, h]

/-- A write to one register leaves the others. -/
theorem State.reg_setReg_other (s : State) {r q : Reg} (h : q ≠ r) (v : Word) : (s.setReg r v).reg q = s.reg q := by
  unfold State.reg State.setReg
  by_cases hr : r = 0#5
  · simp [hr]
  · by_cases hq : q = 0#5
    · simp [hq]
    · have : regIndex r ≠ regIndex q := by
        intro e
        unfold regIndex at e
        have h1 : r.toNat ≠ 0 := fun e' => hr (BitVec.eq_of_toNat_eq e')
        have h2 : q.toNat ≠ 0 := fun e' => hq (BitVec.eq_of_toNat_eq e')
        exact h (BitVec.eq_of_toNat_eq (by omega))
      simp [hr, hq, this]

/-- What every register reads after a write (R12, R21). -/
theorem State.reg_setReg (s : State) (r q : Reg) (v : Word) :
    (s.setReg r v).reg q = if q = r ∧ r ≠ 0#5 then v else s.reg q := by
  by_cases hq : q = r
  · subst hq
    by_cases h0 : q = 0#5
    · simp [h0]
    · simp [h0, State.reg_setReg_self]
  · simp [hq, State.reg_setReg_other s hq]

/-- Register files that read the same are the same. -/
theorem State.regs_ext {s t : State} (h : ∀ r, s.reg r = t.reg r) : s.regs = t.regs := by
  apply Vector.ext
  intro i hi
  have := h (BitVec.ofNat 5 (i + 1))
  have h0 : BitVec.ofNat 5 (i + 1) ≠ 0#5 := by
    intro e
    have := congrArg BitVec.toNat e
    simp only [BitVec.toNat_ofNat] at this
    omega
  have hx : regIndex (BitVec.ofNat 5 (i + 1)) = i := by
    simp only [regIndex, BitVec.toNat_ofNat]; omega
  simpa [State.reg, h0, hx] using this

end Sys2Proof.Machine
end

