-- ==== Sys2Proof/Laws/Access.lean ====
section
/-! SUPPORT. Permissions and the access primitives: one lemma that says all an operation can do, for each of `memRead`, `memWrite`,
`fetch` and `fetchInstr`. -/

namespace Sys2Proof.Machine

/-! ## Permissions -/

theorem allowed_iff (p : Platform) (k : AccessKind) (a n : Nat) :
    allowed p k a n = true ↔ ∀ i < n, permits (permAt p (a + i)) k = true := by
  simp [allowed]

theorem allowed_iff_accessible (s : State) (k : AccessKind) (a n : Nat) :
    allowed s.platform k a n = true ↔ Accessible s k a n := allowed_iff _ _ _ _

/-- No permission set holds both `w` and `x` (`20_memory.md` R54). -/
theorem not_store_and_fetch (p : Perm) : ¬ (permits p .store = true ∧ permits p .fetch = true) := by
  cases p <;> simp [permits]

theorem permits_none (k : AccessKind) : permits .none k = false := by cases k <;> rfl

/-- A permitted address exists. -/
theorem lt_of_permits {p : Platform} {a : Nat} {k : AccessKind} (h : permits (permAt p a) k = true) : a < addressSpace := by
  unfold permAt at h
  split at h
  · assumption
  · simp [permits_none] at h

theorem mapped_of_permits {p : Platform} {a : Nat} {k : AccessKind} (h : permits (permAt p a) k = true) : permAt p a ≠ .none := by
  intro e; simp [e, permits_none] at h

/-! ## The access primitives: all they can do -/

theorem Width.bytes_pos (w : Width) : 0 < w.bytes := by cases w <;> decide

/-- Everything `memRead` can answer (R42). -/
theorem memRead_cases (s : State) (w : Width) (addr : Word) :
    (addr.toNat % w.bytes ≠ 0 ∧ memRead s w addr = .error ⟨.loadAddressMisaligned, addr⟩) ∨
    (addr.toNat % w.bytes = 0 ∧ Accessible s .load addr.toNat w.bytes ∧
      memRead s w addr = .ok (readLE s.mem addr.toNat w)) ∨
    (addr.toNat % w.bytes = 0 ∧ ¬ Accessible s .load addr.toNat w.bytes ∧
      memRead s w addr = .error ⟨.loadAccessFault, addr⟩) := by
  unfold memRead
  simp only [← allowed_iff_accessible]
  split
  · exact .inl ⟨‹_›, rfl⟩
  · split
    · exact .inr (.inl ⟨by omega, ‹_›, rfl⟩)
    · exact .inr (.inr ⟨by omega, ‹_›, rfl⟩)

/-- Everything `memWrite` can answer (R42). -/
theorem memWrite_cases (s : State) (w : Width) (addr v : Word) :
    (addr.toNat % w.bytes ≠ 0 ∧ memWrite s w addr v = .error ⟨.storeAddressMisaligned, addr⟩) ∨
    (addr.toNat % w.bytes = 0 ∧ Accessible s .store addr.toNat w.bytes ∧
      memWrite s w addr v = .ok (writeLE s.mem addr.toNat v w.bytes)) ∨
    (addr.toNat % w.bytes = 0 ∧ ¬ Accessible s .store addr.toNat w.bytes ∧
      memWrite s w addr v = .error ⟨.storeAccessFault, addr⟩) := by
  unfold memWrite
  simp only [← allowed_iff_accessible]
  split
  · exact .inl ⟨‹_›, rfl⟩
  · split
    · exact .inr (.inl ⟨by omega, ‹_›, rfl⟩)
    · exact .inr (.inr ⟨by omega, ‹_›, rfl⟩)

/-- Everything `fetch` can answer (R43). -/
theorem fetch_cases (s : State) (addr : Word) :
    (addr.toNat % 4 ≠ 0 ∧ fetch s addr = .error ⟨.instructionAddressMisaligned, addr⟩) ∨
    (addr.toNat % 4 = 0 ∧ Accessible s .fetch addr.toNat 4 ∧ fetch s addr = .ok (readLE s.mem addr.toNat .word)) ∨
    (addr.toNat % 4 = 0 ∧ ¬ Accessible s .fetch addr.toNat 4 ∧ fetch s addr = .error ⟨.instructionAccessFault, addr⟩) := by
  unfold fetch
  simp only [← allowed_iff_accessible]
  split
  · exact .inl ⟨‹_›, rfl⟩
  · split
    · exact .inr (.inl ⟨by omega, ‹_›, rfl⟩)
    · exact .inr (.inr ⟨by omega, ‹_›, rfl⟩)

/-- Everything `decode` can answer (`30_encoding.md` R86). -/
theorem decode_cases (w : Word) :
    (∃ i, decodeGroup w = some i ∧ decode w = .ok i) ∨ (decodeGroup w = none ∧ decode w = .error (.illegalInstruction w)) := by
  unfold decode
  cases h : decodeGroup w with
  | some i => exact .inl ⟨i, rfl, rfl⟩
  | none => exact .inr ⟨rfl, rfl⟩

/-- Everything `fetchInstr` can answer: steps (2) and (3) of R16, in the order of `60_exceptions.md` R204. -/
theorem fetchInstr_cases (s : State) :
    (s.pc.toNat % 4 ≠ 0 ∧ fetchInstr s = .error ⟨.instructionAddressMisaligned, s.pc⟩) ∨
    (s.pc.toNat % 4 = 0 ∧ ¬ Accessible s .fetch s.pc.toNat 4 ∧ fetchInstr s = .error ⟨.instructionAccessFault, s.pc⟩) ∨
    (s.pc.toNat % 4 = 0 ∧ Accessible s .fetch s.pc.toNat 4 ∧
      decode (readLE s.mem s.pc.toNat .word) = .error (.illegalInstruction (readLE s.mem s.pc.toNat .word)) ∧
      fetchInstr s = .error ⟨.illegalInstruction, readLE s.mem s.pc.toNat .word⟩) ∨
    (∃ i, s.pc.toNat % 4 = 0 ∧ Accessible s .fetch s.pc.toNat 4 ∧ decode (readLE s.mem s.pc.toNat .word) = .ok i ∧
      fetchInstr s = .ok i) := by
  unfold fetchInstr
  rcases fetch_cases s s.pc with ⟨h1, h⟩ | ⟨h1, h2, h⟩ | ⟨h1, h2, h⟩
  · exact .inl ⟨h1, by simp [h]⟩
  · rcases decode_cases (readLE s.mem s.pc.toNat .word) with ⟨i, -, hd⟩ | ⟨-, hd⟩
    · exact .inr (.inr (.inr ⟨i, h1, h2, hd, by simp [h, hd]⟩))
    · exact .inr (.inr (.inl ⟨h1, h2, hd, by simp [h, hd]⟩))
  · exact .inr (.inl ⟨h1, h2, by simp [h]⟩)

/-- Alignment and permission keep a store inside the address space. -/
theorem store_in_space {s : State} {a n : Nat} (h : Accessible s .store a n) (hn : 0 < n) : a + n ≤ addressSpace := by
  have := lt_of_permits (h (n - 1) (by omega))
  omega

end Sys2Proof.Machine
end

