-- ==== Sys2Proof/Laws/Encoding.lean ====
section
/-! SUPPORT. The fields of an encoded word, format by format, and the immediates a decoder reads back from one. A round trip over an
instruction is its fields' lemmas and its immediate's lemma. -/

namespace Sys2Proof

/-! ## Format R and the shift sub-format (`30_encoding.md` R72, R74) -/

section
variable (f7 : BitVec 7) (r2 r1 : BitVec 5) (f3 : BitVec 3) (rd : BitVec 5) (op : BitVec 7)

@[simp] theorem opcodeField_encodeR : opcodeField (encodeR f7 r2 r1 f3 rd op) = op := by
  apply BitVec.eq_of_getLsbD_eq; intro i hi
  simp only [opcodeField, encodeR, BitVec.getLsbD_append, hi, BitVec.getLsbD_extractLsb', decide_true, Bool.true_and]
  interval_cases i <;> rfl
@[simp] theorem rdField_encodeR : rdField (encodeR f7 r2 r1 f3 rd op) = rd := by
  apply BitVec.eq_of_getLsbD_eq; intro i hi
  simp only [rdField, encodeR, BitVec.getLsbD_append, hi, BitVec.getLsbD_extractLsb', decide_true, Bool.true_and]
  interval_cases i <;> rfl
@[simp] theorem funct3Field_encodeR : funct3Field (encodeR f7 r2 r1 f3 rd op) = f3 := by
  apply BitVec.eq_of_getLsbD_eq; intro i hi
  simp only [funct3Field, encodeR, BitVec.getLsbD_append, hi, BitVec.getLsbD_extractLsb', decide_true, Bool.true_and]
  interval_cases i <;> rfl
@[simp] theorem rs1Field_encodeR : rs1Field (encodeR f7 r2 r1 f3 rd op) = r1 := by
  apply BitVec.eq_of_getLsbD_eq; intro i hi
  simp only [rs1Field, encodeR, BitVec.getLsbD_append, hi, BitVec.getLsbD_extractLsb', decide_true, Bool.true_and]
  interval_cases i <;> rfl
@[simp] theorem rs2Field_encodeR : rs2Field (encodeR f7 r2 r1 f3 rd op) = r2 := by
  apply BitVec.eq_of_getLsbD_eq; intro i hi
  simp only [rs2Field, encodeR, BitVec.getLsbD_append, hi, BitVec.getLsbD_extractLsb', decide_true, Bool.true_and]
  interval_cases i <;> rfl
@[simp] theorem funct7Field_encodeR : funct7Field (encodeR f7 r2 r1 f3 rd op) = f7 := by
  apply BitVec.eq_of_getLsbD_eq; intro i hi
  simp only [funct7Field, encodeR, BitVec.getLsbD_append, hi, BitVec.getLsbD_extractLsb', decide_true, Bool.true_and]
  interval_cases i <;> rfl

/-- The shift amount read back (R80). -/
theorem immShamt_encodeR : immShamt (encodeR f7 r2 r1 f3 rd op) = r2.setWidth 32 :=
  congrArg (BitVec.setWidth 32) (rs2Field_encodeR f7 r2 r1 f3 rd op)

end

/-! ## Format I (R73) -/

section
variable (imm : Word) (r1 : BitVec 5) (f3 : BitVec 3) (rd : BitVec 5) (op : BitVec 7)

@[simp] theorem opcodeField_encodeI : opcodeField (encodeI imm r1 f3 rd op) = op := by
  apply BitVec.eq_of_getLsbD_eq; intro i hi
  simp only [opcodeField, encodeI, BitVec.getLsbD_append, hi, BitVec.getLsbD_extractLsb', decide_true, Bool.true_and]
  interval_cases i <;> rfl
@[simp] theorem rdField_encodeI : rdField (encodeI imm r1 f3 rd op) = rd := by
  apply BitVec.eq_of_getLsbD_eq; intro i hi
  simp only [rdField, encodeI, BitVec.getLsbD_append, hi, BitVec.getLsbD_extractLsb', decide_true, Bool.true_and]
  interval_cases i <;> rfl
@[simp] theorem funct3Field_encodeI : funct3Field (encodeI imm r1 f3 rd op) = f3 := by
  apply BitVec.eq_of_getLsbD_eq; intro i hi
  simp only [funct3Field, encodeI, BitVec.getLsbD_append, hi, BitVec.getLsbD_extractLsb', decide_true, Bool.true_and]
  interval_cases i <;> rfl
@[simp] theorem rs1Field_encodeI : rs1Field (encodeI imm r1 f3 rd op) = r1 := by
  apply BitVec.eq_of_getLsbD_eq; intro i hi
  simp only [rs1Field, encodeI, BitVec.getLsbD_append, hi, BitVec.getLsbD_extractLsb', decide_true, Bool.true_and]
  interval_cases i <;> rfl

/-- The bits of the I-immediate read back (R79). -/
theorem immBits_encodeI : (encodeI imm r1 f3 rd op).extractLsb' 20 12 = imm.extractLsb' 0 12 := by
  apply BitVec.eq_of_getLsbD_eq; intro i hi
  simp only [encodeI, BitVec.getLsbD_append, hi, BitVec.getLsbD_extractLsb', decide_true, Bool.true_and]
  interval_cases i <;> simp

end

/-! ## Format S (R75) -/

section
variable (imm : Word) (r2 r1 : BitVec 5) (f3 : BitVec 3) (op : BitVec 7)

@[simp] theorem opcodeField_encodeS : opcodeField (encodeS imm r2 r1 f3 op) = op := by
  apply BitVec.eq_of_getLsbD_eq; intro i hi
  simp only [opcodeField, encodeS, BitVec.getLsbD_append, hi, BitVec.getLsbD_extractLsb', decide_true, Bool.true_and]
  interval_cases i <;> rfl
@[simp] theorem funct3Field_encodeS : funct3Field (encodeS imm r2 r1 f3 op) = f3 := by
  apply BitVec.eq_of_getLsbD_eq; intro i hi
  simp only [funct3Field, encodeS, BitVec.getLsbD_append, hi, BitVec.getLsbD_extractLsb', decide_true, Bool.true_and]
  interval_cases i <;> rfl
@[simp] theorem rs1Field_encodeS : rs1Field (encodeS imm r2 r1 f3 op) = r1 := by
  apply BitVec.eq_of_getLsbD_eq; intro i hi
  simp only [rs1Field, encodeS, BitVec.getLsbD_append, hi, BitVec.getLsbD_extractLsb', decide_true, Bool.true_and]
  interval_cases i <;> rfl
@[simp] theorem rs2Field_encodeS : rs2Field (encodeS imm r2 r1 f3 op) = r2 := by
  apply BitVec.eq_of_getLsbD_eq; intro i hi
  simp only [rs2Field, encodeS, BitVec.getLsbD_append, hi, BitVec.getLsbD_extractLsb', decide_true, Bool.true_and]
  interval_cases i <;> rfl

/-- The bits of the S-immediate read back (R81). -/
theorem immBits_encodeS :
    ((encodeS imm r2 r1 f3 op).extractLsb' 25 7 ++ (encodeS imm r2 r1 f3 op).extractLsb' 7 5 : BitVec 12) = imm.extractLsb' 0 12 := by
  apply BitVec.eq_of_getLsbD_eq; intro i hi
  simp only [encodeS, BitVec.getLsbD_append, hi, BitVec.getLsbD_extractLsb', decide_true, Bool.true_and]
  interval_cases i <;> simp

end

/-! ## Format B (R76) -/

section
variable (imm : Word) (r2 r1 : BitVec 5) (f3 : BitVec 3) (op : BitVec 7)

@[simp] theorem opcodeField_encodeB : opcodeField (encodeB imm r2 r1 f3 op) = op := by
  apply BitVec.eq_of_getLsbD_eq; intro i hi
  simp only [opcodeField, encodeB, BitVec.getLsbD_append, hi, BitVec.getLsbD_extractLsb', decide_true, Bool.true_and]
  interval_cases i <;> rfl
@[simp] theorem funct3Field_encodeB : funct3Field (encodeB imm r2 r1 f3 op) = f3 := by
  apply BitVec.eq_of_getLsbD_eq; intro i hi
  simp only [funct3Field, encodeB, BitVec.getLsbD_append, hi, BitVec.getLsbD_extractLsb', decide_true, Bool.true_and]
  interval_cases i <;> rfl
@[simp] theorem rs1Field_encodeB : rs1Field (encodeB imm r2 r1 f3 op) = r1 := by
  apply BitVec.eq_of_getLsbD_eq; intro i hi
  simp only [rs1Field, encodeB, BitVec.getLsbD_append, hi, BitVec.getLsbD_extractLsb', decide_true, Bool.true_and]
  interval_cases i <;> rfl
@[simp] theorem rs2Field_encodeB : rs2Field (encodeB imm r2 r1 f3 op) = r2 := by
  apply BitVec.eq_of_getLsbD_eq; intro i hi
  simp only [rs2Field, encodeB, BitVec.getLsbD_append, hi, BitVec.getLsbD_extractLsb', decide_true, Bool.true_and]
  interval_cases i <;> rfl

/-- The bits of the B-immediate read back, if its bit 0 is zero (R82). -/
theorem immBits_encodeB (h : imm.extractLsb' 0 1 = 0#1) :
    ((encodeB imm r2 r1 f3 op).extractLsb' 31 1 ++ (encodeB imm r2 r1 f3 op).extractLsb' 7 1 ++
      (encodeB imm r2 r1 f3 op).extractLsb' 25 6 ++ (encodeB imm r2 r1 f3 op).extractLsb' 8 4 ++ 0#1 : BitVec 13) =
      imm.extractLsb' 0 13 := by
  rw [← h]
  apply BitVec.eq_of_getLsbD_eq; intro i hi
  simp only [encodeB, BitVec.getLsbD_append, hi, BitVec.getLsbD_extractLsb', decide_true, Bool.true_and]
  interval_cases i <;> simp

end

/-! ## Formats U and J (R77, R78) -/

section
variable (imm : Word) (rd : BitVec 5) (op : BitVec 7)

@[simp] theorem opcodeField_encodeU : opcodeField (encodeU imm rd op) = op := by
  apply BitVec.eq_of_getLsbD_eq; intro i hi
  simp only [opcodeField, encodeU, BitVec.getLsbD_append, hi, BitVec.getLsbD_extractLsb', decide_true, Bool.true_and]
  interval_cases i <;> rfl
@[simp] theorem rdField_encodeU : rdField (encodeU imm rd op) = rd := by
  apply BitVec.eq_of_getLsbD_eq; intro i hi
  simp only [rdField, encodeU, BitVec.getLsbD_append, hi, BitVec.getLsbD_extractLsb', decide_true, Bool.true_and]
  interval_cases i <;> rfl

/-- The U-immediate read back, if its low 12 bits are zero (R83). -/
theorem immU_encodeU (h : imm.extractLsb' 0 12 = 0#12) : immU (encodeU imm rd op) = imm := by
  unfold immU
  rw [← h]
  apply BitVec.eq_of_getLsbD_eq; intro i hi
  simp only [encodeU, BitVec.getLsbD_append, BitVec.getLsbD_extractLsb']
  interval_cases i <;> simp

@[simp] theorem opcodeField_encodeJ : opcodeField (encodeJ imm rd op) = op := by
  apply BitVec.eq_of_getLsbD_eq; intro i hi
  simp only [opcodeField, encodeJ, BitVec.getLsbD_append, hi, BitVec.getLsbD_extractLsb', decide_true, Bool.true_and]
  interval_cases i <;> rfl
@[simp] theorem rdField_encodeJ : rdField (encodeJ imm rd op) = rd := by
  apply BitVec.eq_of_getLsbD_eq; intro i hi
  simp only [rdField, encodeJ, BitVec.getLsbD_append, hi, BitVec.getLsbD_extractLsb', decide_true, Bool.true_and]
  interval_cases i <;> rfl

/-- The bits of the J-immediate read back, if its bit 0 is zero (R84). -/
theorem immBits_encodeJ (h : imm.extractLsb' 0 1 = 0#1) :
    ((encodeJ imm rd op).extractLsb' 31 1 ++ (encodeJ imm rd op).extractLsb' 12 8 ++ (encodeJ imm rd op).extractLsb' 20 1 ++
      (encodeJ imm rd op).extractLsb' 21 10 ++ 0#1 : BitVec 21) = imm.extractLsb' 0 21 := by
  rw [← h]
  apply BitVec.eq_of_getLsbD_eq; intro i hi
  simp only [encodeJ, BitVec.getLsbD_append, hi, BitVec.getLsbD_extractLsb', decide_true, Bool.true_and]
  interval_cases i <;> simp

end

/-! ## Immediates and their ranges (R79 to R84, R91) -/

/-- A value in the range of `n + 1` signed bits is the sign extension of its low `n + 1` bits. -/
theorem signExtend_low (n : Nat) (hn : n < 32) (imm : Word) (h1 : -(2 ^ n : Int) ≤ imm.toInt) (h2 : imm.toInt < (2 ^ n : Int)) :
    (imm.extractLsb' 0 (n + 1)).signExtend 32 = imm := by
  apply BitVec.eq_of_toInt_eq
  have e : imm.extractLsb' 0 (n + 1) = imm.setWidth (n + 1) := by
    apply BitVec.eq_of_getLsbD_eq; intro i hi; simp [hi]
  rw [BitVec.toInt_signExtend, e, BitVec.toInt_setWidth, Nat.min_eq_right (by omega), Int.bmod_bmod]
  have hd : (2 ^ (n + 1) : Nat) ∣ 2 ^ 32 := Nat.pow_dvd_pow 2 (by omega)
  rw [← Int.bmod_bmod_of_dvd (a := (imm.toNat : Int)) hd, ← BitVec.toInt_eq_toNat_bmod]
  have hp : ((2 ^ (n + 1) : Nat) : Int) = 2 * 2 ^ n := by push_cast; ring
  apply Int.bmod_eq_of_le
  · omega
  · omega

/-- The sign extension of `n + 1` bits lies in the range of `n + 1` signed bits. -/
theorem signExtend_range (n : Nat) (hn : n < 32) (v : BitVec (n + 1)) :
    -(2 ^ n : Int) ≤ (v.signExtend 32).toInt ∧ (v.signExtend 32).toInt < (2 ^ n : Int) := by
  rw [BitVec.toInt_signExtend_of_le (by omega)]
  exact ⟨by simpa using BitVec.le_toInt v, by simpa using BitVec.toInt_lt (x := v)⟩

/-- A well-formed I- or S-immediate is what its low 12 bits extend to (R79, R81). -/
theorem imm12_of_fits {imm : Word} (h : fitsImm12 imm = true) : (imm.extractLsb' 0 12).signExtend 32 = imm := by
  have h := of_decide_eq_true h
  exact signExtend_low 11 (by decide) imm (by omega) (by omega)

theorem lowBit_of_even {imm : Word} (h : imm.toNat % 2 = 0) : imm.extractLsb' 0 1 = 0#1 := by
  apply BitVec.eq_of_toNat_eq; simp [h]

/-- A well-formed B-immediate is what its low 13 bits extend to (R82). -/
theorem immBranch_of_fits {imm : Word} (h : fitsBranch imm = true) :
    (imm.extractLsb' 0 13).signExtend 32 = imm ∧ imm.extractLsb' 0 1 = 0#1 := by
  have h := of_decide_eq_true h
  exact ⟨signExtend_low 12 (by decide) imm (by omega) (by omega), lowBit_of_even h.1⟩

/-- A well-formed J-immediate is what its low 21 bits extend to (R84). -/
theorem immJump_of_fits {imm : Word} (h : fitsJump imm = true) :
    (imm.extractLsb' 0 21).signExtend 32 = imm ∧ imm.extractLsb' 0 1 = 0#1 := by
  have h := of_decide_eq_true h
  exact ⟨signExtend_low 20 (by decide) imm (by omega) (by omega), lowBit_of_even h.1⟩

/-- A well-formed U-immediate has twelve low zeros (R83). -/
theorem immUpper_of_fits {imm : Word} (h : fitsUpper imm = true) : imm.extractLsb' 0 12 = 0#12 := by
  have h := of_decide_eq_true h
  apply BitVec.eq_of_toNat_eq; simp [h]

/-- A well-formed shift amount is its low five bits (R80). -/
theorem shamt_of_fits {shamt : Word} (h : fitsShamt shamt = true) : (shamt.extractLsb' 0 5).setWidth 32 = shamt := by
  have h := of_decide_eq_true h
  apply BitVec.eq_of_toNat_eq
  simp only [BitVec.toNat_setWidth, BitVec.extractLsb'_toNat, Nat.shiftRight_zero]
  omega

/-- The I-immediate read back from an encoded word. -/
theorem immI_encodeI {imm : Word} (h : fitsImm12 imm = true) (r1 : BitVec 5) (f3 : BitVec 3) (rd : BitVec 5) (op : BitVec 7) :
    immI (encodeI imm r1 f3 rd op) = imm := by
  rw [immI, immBits_encodeI, imm12_of_fits h]

/-- The S-immediate read back from an encoded word. -/
theorem immS_encodeS {imm : Word} (h : fitsImm12 imm = true) (r2 r1 : BitVec 5) (f3 : BitVec 3) (op : BitVec 7) :
    immS (encodeS imm r2 r1 f3 op) = imm := by
  rw [immS, immBits_encodeS, imm12_of_fits h]

/-- The B-immediate read back from an encoded word. -/
theorem immB_encodeB {imm : Word} (h : fitsBranch imm = true) (r2 r1 : BitVec 5) (f3 : BitVec 3) (op : BitVec 7) :
    immB (encodeB imm r2 r1 f3 op) = imm := by
  rw [immB, immBits_encodeB _ _ _ _ _ (immBranch_of_fits h).2, (immBranch_of_fits h).1]

/-- The J-immediate read back from an encoded word. -/
theorem immJ_encodeJ {imm : Word} (h : fitsJump imm = true) (rd : BitVec 5) (op : BitVec 7) :
    immJ (encodeJ imm rd op) = imm := by
  rw [immJ, immBits_encodeJ _ _ _ (immJump_of_fits h).2, (immJump_of_fits h).1]

/-- The shift amount read back from an encoded word. -/
theorem immShamt_encode {shamt : Word} (h : fitsShamt shamt = true) (f7 : BitVec 7) (r1 : BitVec 5) (f3 : BitVec 3) (rd : BitVec 5)
    (op : BitVec 7) : immShamt (encodeR f7 (shamt.extractLsb' 0 5) r1 f3 rd op) = shamt := by
  rw [immShamt_encodeR, shamt_of_fits h]

/-! ## The mask of each format applied to an encoded word (R85) -/

theorem encodeR_mask (f7 : BitVec 7) (r2 r1 : BitVec 5) (f3 : BitVec 3) (rd : BitVec 5) (op : BitVec 7) :
    encodeR f7 r2 r1 f3 rd op &&& 0xfe00707f#32 = encodeR f7 0#5 0#5 f3 0#5 op := by
  apply BitVec.eq_of_getLsbD_eq; intro i hi
  simp only [encodeR, BitVec.getLsbD_and, BitVec.getLsbD_append]
  interval_cases i <;> simp

theorem encodeI_mask (imm : Word) (r1 : BitVec 5) (f3 : BitVec 3) (rd : BitVec 5) (op : BitVec 7) :
    encodeI imm r1 f3 rd op &&& 0x0000707f#32 = encodeI 0#32 0#5 f3 0#5 op := by
  apply BitVec.eq_of_getLsbD_eq; intro i hi
  simp only [encodeI, BitVec.getLsbD_and, BitVec.getLsbD_append]
  interval_cases i <;> simp

theorem encodeS_mask (imm : Word) (r2 r1 : BitVec 5) (f3 : BitVec 3) (op : BitVec 7) :
    encodeS imm r2 r1 f3 op &&& 0x0000707f#32 = encodeS 0#32 0#5 0#5 f3 op := by
  apply BitVec.eq_of_getLsbD_eq; intro i hi
  simp only [encodeS, BitVec.getLsbD_and, BitVec.getLsbD_append]
  interval_cases i <;> simp

theorem encodeB_mask (imm : Word) (r2 r1 : BitVec 5) (f3 : BitVec 3) (op : BitVec 7) :
    encodeB imm r2 r1 f3 op &&& 0x0000707f#32 = encodeB 0#32 0#5 0#5 f3 op := by
  apply BitVec.eq_of_getLsbD_eq; intro i hi
  simp only [encodeB, BitVec.getLsbD_and, BitVec.getLsbD_append]
  interval_cases i <;> simp

theorem encodeU_mask (imm : Word) (rd : BitVec 5) (op : BitVec 7) :
    encodeU imm rd op &&& 0x0000007f#32 = encodeU 0#32 0#5 op := by
  apply BitVec.eq_of_getLsbD_eq; intro i hi
  simp only [encodeU, BitVec.getLsbD_and, BitVec.getLsbD_append]
  interval_cases i <;> simp

theorem encodeJ_mask (imm : Word) (rd : BitVec 5) (op : BitVec 7) :
    encodeJ imm rd op &&& 0x0000007f#32 = encodeJ 0#32 0#5 op := by
  apply BitVec.eq_of_getLsbD_eq; intro i hi
  simp only [encodeJ, BitVec.getLsbD_and, BitVec.getLsbD_append]
  interval_cases i <;> simp

end Sys2Proof
end

