-- ==== Sys2Proof/Laws/Exec.lean ====
section
/-! SUPPORT. How an instruction can end: one inversion lemma for each shared ending, and `exec_cases`, which says of every
instruction at once which ending it takes. -/

namespace Sys2Proof.Machine

/-- Everything a control transfer can do (`20_memory.md` R44). -/
theorem transferTo_cases (s s' : State) (t : Word) :
    (t.toNat % 4 ≠ 0 ∧ transferTo s s' t = .next (s.raise ⟨.instructionAddressMisaligned, t⟩)) ∨
    (t.toNat % 4 = 0 ∧ transferTo s s' t = .next (s'.setPc t)) := by
  unfold transferTo takeException
  split
  · exact .inl ⟨‹_›, rfl⟩
  · exact .inr ⟨by omega, rfl⟩

/-- Everything a branch can do (`44_b_type.md` R180). -/
theorem branchIf_cases (s : State) (c : Bool) (imm : Word) :
    (c = false ∧ branchIf s c imm = .next s.advance) ∨
    (c = true ∧ (s.pc + imm).toNat % 4 ≠ 0 ∧
      branchIf s c imm = .next (s.raise ⟨.instructionAddressMisaligned, s.pc + imm⟩)) ∨
    (c = true ∧ (s.pc + imm).toNat % 4 = 0 ∧ branchIf s c imm = .next (s.setPc (s.pc + imm))) := by
  unfold branchIf
  cases c with
  | false => exact .inl ⟨rfl, rfl⟩
  | true =>
    rcases transferTo_cases s s (s.pc + imm) with ⟨h, e⟩ | ⟨h, e⟩
    · exact .inr (.inl ⟨rfl, h, by simp [e]⟩)
    · exact .inr (.inr ⟨rfl, h, by simp [e]⟩)

/-- Everything a load can do (R42). -/
theorem loadInto_cases (s : State) (rd : Reg) (w : Width) (ext : Word → Word) (addr : Word) :
    (addr.toNat % w.bytes ≠ 0 ∧ loadInto s rd w ext addr = .next (s.raise ⟨.loadAddressMisaligned, addr⟩)) ∨
    (addr.toNat % w.bytes = 0 ∧ Accessible s .load addr.toNat w.bytes ∧
      loadInto s rd w ext addr = .next (s.setReg rd (ext (readLE s.mem addr.toNat w))).advance) ∨
    (addr.toNat % w.bytes = 0 ∧ ¬ Accessible s .load addr.toNat w.bytes ∧
      loadInto s rd w ext addr = .next (s.raise ⟨.loadAccessFault, addr⟩)) := by
  unfold loadInto
  rcases memRead_cases s w addr with ⟨h, e⟩ | ⟨h, h', e⟩ | ⟨h, h', e⟩
  · exact .inl ⟨h, by rw [e]; rfl⟩
  · exact .inr (.inl ⟨h, h', by rw [e]; rfl⟩)
  · exact .inr (.inr ⟨h, h', by rw [e]; rfl⟩)

/-- Everything a store can do (`42_s_type.md` R160; R42). -/
theorem storeAt_cases (s : State) (w : Width) (addr v : Word) :
    (addr.toNat % w.bytes ≠ 0 ∧ storeAt s w addr v = .next (s.raise ⟨.storeAddressMisaligned, addr⟩)) ∨
    (addr.toNat % w.bytes = 0 ∧ Accessible s .store addr.toNat w.bytes ∧
      storeAt s w addr v = .next { s with mem := writeLE s.mem addr.toNat v w.bytes, pc := s.pc + 4#32 }) ∨
    (addr.toNat % w.bytes = 0 ∧ ¬ Accessible s .store addr.toNat w.bytes ∧
      storeAt s w addr v = .next (s.raise ⟨.storeAccessFault, addr⟩)) := by
  unfold storeAt
  rcases memWrite_cases s w addr v with ⟨h, e⟩ | ⟨h, h', e⟩ | ⟨h, h', e⟩
  · exact .inl ⟨h, by rw [e]; rfl⟩
  · exact .inr (.inl ⟨h, h', by rw [e]⟩)
  · exact .inr (.inr ⟨h, h', by rw [e]; rfl⟩)

/-- The ways an instruction can end, read from the shared operations. -/
inductive Ending (s : State) : State → Prop where
  /-- a register result, or none when `rd` is `x0`, then the next instruction -/
  | result (rd : Reg) (v : Word) : Ending s (s.setReg rd v).advance
  /-- a branch not taken -/
  | fallThrough : Ending s s.advance
  /-- a control transfer to an aligned target, with or without a link -/
  | transfer (rd : Reg) (v t : Word) (aligned : t.toNat % 4 = 0) : Ending s ((s.setReg rd v).setPc t)
  /-- a store of some width to bytes that are all writable -/
  | store (w : Width) (addr v : Word) (aligned : addr.toNat % w.bytes = 0)
      (writable : Accessible s .store addr.toNat w.bytes) :
      Ending s { s with mem := writeLE s.mem addr.toNat v w.bytes, pc := s.pc + 4#32 }
  /-- an exception of a control transfer -/
  | targetMisaligned (t : Word) (h : t.toNat % 4 ≠ 0) : Ending s (s.raise ⟨.instructionAddressMisaligned, t⟩)
  /-- the exceptions of a load -/
  | loadMisaligned (w : Width) (addr : Word) (h : addr.toNat % w.bytes ≠ 0) : Ending s (s.raise ⟨.loadAddressMisaligned, addr⟩)
  | loadFault (w : Width) (addr : Word) (aligned : addr.toNat % w.bytes = 0)
      (h : ¬ Accessible s .load addr.toNat w.bytes) : Ending s (s.raise ⟨.loadAccessFault, addr⟩)
  /-- the exceptions of a store -/
  | storeMisaligned (w : Width) (addr : Word) (h : addr.toNat % w.bytes ≠ 0) : Ending s (s.raise ⟨.storeAddressMisaligned, addr⟩)
  | storeFault (w : Width) (addr : Word) (aligned : addr.toNat % w.bytes = 0)
      (h : ¬ Accessible s .store addr.toNat w.bytes) : Ending s (s.raise ⟨.storeAccessFault, addr⟩)

theorem finishWith_ending (s : State) (rd : Reg) (v : Word) : ∃ t, finishWith s rd v = .next t ∧ Ending s t :=
  ⟨_, rfl, .result rd v⟩

theorem transferTo_ending (s : State) (rd : Reg) (v t : Word) : ∃ u, transferTo s (s.setReg rd v) t = .next u ∧ Ending s u := by
  rcases transferTo_cases s (s.setReg rd v) t with ⟨h, e⟩ | ⟨h, e⟩
  · exact ⟨_, e, .targetMisaligned t h⟩
  · exact ⟨_, e, .transfer rd v t h⟩

theorem branchIf_ending (s : State) (c : Bool) (imm : Word) : ∃ u, branchIf s c imm = .next u ∧ Ending s u := by
  rcases branchIf_cases s c imm with ⟨-, e⟩ | ⟨-, h, e⟩ | ⟨-, h, e⟩
  · exact ⟨_, e, .fallThrough⟩
  · exact ⟨_, e, .targetMisaligned _ h⟩
  · exact ⟨_, e, by simpa using Ending.transfer (s := s) 0#5 0#32 _ h⟩

theorem loadInto_ending (s : State) (rd : Reg) (w : Width) (ext : Word → Word) (addr : Word) :
    ∃ u, loadInto s rd w ext addr = .next u ∧ Ending s u := by
  rcases loadInto_cases s rd w ext addr with ⟨h, e⟩ | ⟨-, -, e⟩ | ⟨h, h', e⟩
  · exact ⟨_, e, .loadMisaligned w addr h⟩
  · exact ⟨_, e, .result _ _⟩
  · exact ⟨_, e, .loadFault w addr h h'⟩

theorem storeAt_ending (s : State) (w : Width) (addr v : Word) : ∃ u, storeAt s w addr v = .next u ∧ Ending s u := by
  rcases storeAt_cases s w addr v with ⟨h, e⟩ | ⟨h, h', e⟩ | ⟨h, h', e⟩
  · exact ⟨_, e, .storeMisaligned w addr h⟩
  · exact ⟨_, e, .store w addr v h h'⟩
  · exact ⟨_, e, .storeFault w addr h h'⟩

/-- Every instruction ends in one of these ways, in every state: no fault and no refusal (`93_implementation_defined.md` Part A). -/
theorem exec_cases (i : Instr) (s : State) : ∃ t, exec i s = .next t ∧ Ending s t := by
  cases i <;> first
    | exact finishWith_ending s _ _
    | exact transferTo_ending s _ _ _
    | exact branchIf_ending s _ _
    | exact loadInto_ending s _ _ _ _
    | exact storeAt_ending s _ _ _

/-- Everything a step can do (`00_scope.md` R16). -/
theorem step_cases (s : State) :
    (s.status = .halted ∧ step s = .fault .stepAfterHalt) ∨
    (∃ e p info, s.status = .faulted e p info ∧ step s = .fault .stepAfterException) ∨
    (s.status = .running ∧ s.pc = s.platform.endPc ∧ step s = .next s.halt) ∨
    (s.status = .running ∧ s.pc ≠ s.platform.endPc ∧ ∃ r, fetchInstr s = .error r ∧ step s = .next (s.raise r)) ∨
    (s.status = .running ∧ s.pc ≠ s.platform.endPc ∧ ∃ i, fetchInstr s = .ok i ∧ step s = exec i s) := by
  unfold step takeException State.atEnd
  cases hs : s.status with
  | halted => exact .inl ⟨rfl, rfl⟩
  | faulted e p info => exact .inr (.inl ⟨e, p, info, rfl, rfl⟩)
  | running =>
    by_cases hp : s.pc = s.platform.endPc
    · exact .inr (.inr (.inl ⟨rfl, hp, by simp [hp]⟩))
    · cases hf : fetchInstr s with
      | error r => exact .inr (.inr (.inr (.inl ⟨rfl, hp, r, rfl, by simp [hp]⟩)))
      | ok i => exact .inr (.inr (.inr (.inr ⟨rfl, hp, i, rfl, by simp [hp]⟩)))

end Sys2Proof.Machine
end

