-- ==== Sys2Proof/Laws/PerInstr.lean ====
section
/-! SUPPORT. The family OpcodeRow, instruction by instruction: the word of an instruction, masked as its row of the opcode map says,
is the row's match (`30_encoding.md` R85). -/

namespace Sys2Proof.Laws.OpcodeRow

/-- The encoded word matches the instruction's own row of the opcode map, with every operand. -/
def Statement (i : Instr) : Prop :=
  ∃ row ∈ opcodeTable, row.mnemonic = i.mnemonic ∧ encode i &&& row.mask = row.pattern

/-- One row, from the format's mask lemma and the row's own values. -/
theorem row_of {i : Instr} {fixed : Word} (row : OpcodeRow) (hr : row ∈ opcodeTable) (hm : row.mnemonic = i.mnemonic)
    (h : encode i &&& row.mask = fixed) (hf : fixed = row.pattern) : Statement i :=
  ⟨row, hr, hm, h.trans hf⟩

theorem add (rd rs1 rs2 : Reg) : Statement (.add rd rs1 rs2) :=
  row_of ⟨"add", 0x00000033, 0xfe00707f⟩ (by decide) rfl (encodeR_mask ..) (by decide)

theorem sub (rd rs1 rs2 : Reg) : Statement (.sub rd rs1 rs2) :=
  row_of ⟨"sub", 0x40000033, 0xfe00707f⟩ (by decide) rfl (encodeR_mask ..) (by decide)

theorem slt (rd rs1 rs2 : Reg) : Statement (.slt rd rs1 rs2) :=
  row_of ⟨"slt", 0x00002033, 0xfe00707f⟩ (by decide) rfl (encodeR_mask ..) (by decide)

theorem sltu (rd rs1 rs2 : Reg) : Statement (.sltu rd rs1 rs2) :=
  row_of ⟨"sltu", 0x00003033, 0xfe00707f⟩ (by decide) rfl (encodeR_mask ..) (by decide)

theorem and (rd rs1 rs2 : Reg) : Statement (.and rd rs1 rs2) :=
  row_of ⟨"and", 0x00007033, 0xfe00707f⟩ (by decide) rfl (encodeR_mask ..) (by decide)

theorem or (rd rs1 rs2 : Reg) : Statement (.or rd rs1 rs2) :=
  row_of ⟨"or", 0x00006033, 0xfe00707f⟩ (by decide) rfl (encodeR_mask ..) (by decide)

theorem xor (rd rs1 rs2 : Reg) : Statement (.xor rd rs1 rs2) :=
  row_of ⟨"xor", 0x00004033, 0xfe00707f⟩ (by decide) rfl (encodeR_mask ..) (by decide)

theorem sll (rd rs1 rs2 : Reg) : Statement (.sll rd rs1 rs2) :=
  row_of ⟨"sll", 0x00001033, 0xfe00707f⟩ (by decide) rfl (encodeR_mask ..) (by decide)

theorem srl (rd rs1 rs2 : Reg) : Statement (.srl rd rs1 rs2) :=
  row_of ⟨"srl", 0x00005033, 0xfe00707f⟩ (by decide) rfl (encodeR_mask ..) (by decide)

theorem sra (rd rs1 rs2 : Reg) : Statement (.sra rd rs1 rs2) :=
  row_of ⟨"sra", 0x40005033, 0xfe00707f⟩ (by decide) rfl (encodeR_mask ..) (by decide)

theorem jalr (rd rs1 : Reg) (imm : Word) : Statement (.jalr rd rs1 imm) :=
  row_of ⟨"jalr", 0x00000067, 0x0000707f⟩ (by decide) rfl (encodeI_mask ..) (by decide)

theorem lw (rd rs1 : Reg) (imm : Word) : Statement (.lw rd rs1 imm) :=
  row_of ⟨"lw", 0x00002003, 0x0000707f⟩ (by decide) rfl (encodeI_mask ..) (by decide)

theorem lh (rd rs1 : Reg) (imm : Word) : Statement (.lh rd rs1 imm) :=
  row_of ⟨"lh", 0x00001003, 0x0000707f⟩ (by decide) rfl (encodeI_mask ..) (by decide)

theorem lhu (rd rs1 : Reg) (imm : Word) : Statement (.lhu rd rs1 imm) :=
  row_of ⟨"lhu", 0x00005003, 0x0000707f⟩ (by decide) rfl (encodeI_mask ..) (by decide)

theorem lb (rd rs1 : Reg) (imm : Word) : Statement (.lb rd rs1 imm) :=
  row_of ⟨"lb", 0x00000003, 0x0000707f⟩ (by decide) rfl (encodeI_mask ..) (by decide)

theorem lbu (rd rs1 : Reg) (imm : Word) : Statement (.lbu rd rs1 imm) :=
  row_of ⟨"lbu", 0x00004003, 0x0000707f⟩ (by decide) rfl (encodeI_mask ..) (by decide)

theorem addi (rd rs1 : Reg) (imm : Word) : Statement (.addi rd rs1 imm) :=
  row_of ⟨"addi", 0x00000013, 0x0000707f⟩ (by decide) rfl (encodeI_mask ..) (by decide)

theorem slti (rd rs1 : Reg) (imm : Word) : Statement (.slti rd rs1 imm) :=
  row_of ⟨"slti", 0x00002013, 0x0000707f⟩ (by decide) rfl (encodeI_mask ..) (by decide)

theorem sltiu (rd rs1 : Reg) (imm : Word) : Statement (.sltiu rd rs1 imm) :=
  row_of ⟨"sltiu", 0x00003013, 0x0000707f⟩ (by decide) rfl (encodeI_mask ..) (by decide)

theorem andi (rd rs1 : Reg) (imm : Word) : Statement (.andi rd rs1 imm) :=
  row_of ⟨"andi", 0x00007013, 0x0000707f⟩ (by decide) rfl (encodeI_mask ..) (by decide)

theorem ori (rd rs1 : Reg) (imm : Word) : Statement (.ori rd rs1 imm) :=
  row_of ⟨"ori", 0x00006013, 0x0000707f⟩ (by decide) rfl (encodeI_mask ..) (by decide)

theorem xori (rd rs1 : Reg) (imm : Word) : Statement (.xori rd rs1 imm) :=
  row_of ⟨"xori", 0x00004013, 0x0000707f⟩ (by decide) rfl (encodeI_mask ..) (by decide)

theorem slli (rd rs1 : Reg) (shamt : Word) : Statement (.slli rd rs1 shamt) :=
  row_of ⟨"slli", 0x00001013, 0xfe00707f⟩ (by decide) rfl (encodeR_mask ..) (by decide)

theorem srli (rd rs1 : Reg) (shamt : Word) : Statement (.srli rd rs1 shamt) :=
  row_of ⟨"srli", 0x00005013, 0xfe00707f⟩ (by decide) rfl (encodeR_mask ..) (by decide)

theorem srai (rd rs1 : Reg) (shamt : Word) : Statement (.srai rd rs1 shamt) :=
  row_of ⟨"srai", 0x40005013, 0xfe00707f⟩ (by decide) rfl (encodeR_mask ..) (by decide)

theorem sw (rs2 rs1 : Reg) (imm : Word) : Statement (.sw rs2 rs1 imm) :=
  row_of ⟨"sw", 0x00002023, 0x0000707f⟩ (by decide) rfl (encodeS_mask ..) (by decide)

theorem sh (rs2 rs1 : Reg) (imm : Word) : Statement (.sh rs2 rs1 imm) :=
  row_of ⟨"sh", 0x00001023, 0x0000707f⟩ (by decide) rfl (encodeS_mask ..) (by decide)

theorem sb (rs2 rs1 : Reg) (imm : Word) : Statement (.sb rs2 rs1 imm) :=
  row_of ⟨"sb", 0x00000023, 0x0000707f⟩ (by decide) rfl (encodeS_mask ..) (by decide)

theorem lui (rd : Reg) (imm : Word) : Statement (.lui rd imm) :=
  row_of ⟨"lui", 0x00000037, 0x0000007f⟩ (by decide) rfl (encodeU_mask ..) (by decide)

theorem auipc (rd : Reg) (imm : Word) : Statement (.auipc rd imm) :=
  row_of ⟨"auipc", 0x00000017, 0x0000007f⟩ (by decide) rfl (encodeU_mask ..) (by decide)

theorem beq (rs1 rs2 : Reg) (imm : Word) : Statement (.beq rs1 rs2 imm) :=
  row_of ⟨"beq", 0x00000063, 0x0000707f⟩ (by decide) rfl (encodeB_mask ..) (by decide)

theorem bne (rs1 rs2 : Reg) (imm : Word) : Statement (.bne rs1 rs2 imm) :=
  row_of ⟨"bne", 0x00001063, 0x0000707f⟩ (by decide) rfl (encodeB_mask ..) (by decide)

theorem blt (rs1 rs2 : Reg) (imm : Word) : Statement (.blt rs1 rs2 imm) :=
  row_of ⟨"blt", 0x00004063, 0x0000707f⟩ (by decide) rfl (encodeB_mask ..) (by decide)

theorem bge (rs1 rs2 : Reg) (imm : Word) : Statement (.bge rs1 rs2 imm) :=
  row_of ⟨"bge", 0x00005063, 0x0000707f⟩ (by decide) rfl (encodeB_mask ..) (by decide)

theorem bltu (rs1 rs2 : Reg) (imm : Word) : Statement (.bltu rs1 rs2 imm) :=
  row_of ⟨"bltu", 0x00006063, 0x0000707f⟩ (by decide) rfl (encodeB_mask ..) (by decide)

theorem bgeu (rs1 rs2 : Reg) (imm : Word) : Statement (.bgeu rs1 rs2 imm) :=
  row_of ⟨"bgeu", 0x00007063, 0x0000707f⟩ (by decide) rfl (encodeB_mask ..) (by decide)

theorem jal (rd : Reg) (imm : Word) : Statement (.jal rd imm) :=
  row_of ⟨"jal", 0x0000006f, 0x0000007f⟩ (by decide) rfl (encodeJ_mask ..) (by decide)

end Sys2Proof.Laws.OpcodeRow
end

