-- ==== Sys2Proof/Tests/Slice0.lean ====
section
/-! SUPPORT. The model's own tests. Expected values are the spec's: the vectors of `95_test_vectors.md` and the worked examples of the
rules. Each is a named theorem. First what well-formedness refuses, then decoding, then one step per theorem, then the machine as a whole, then for
every statement of `Certificates/Slice0/Obligations.lean` with hypotheses the states and operands that meet them, clause by clause. -/

namespace Sys2Proof.Tests

open Sys2Proof.Machine

/-! ## The bench -/

/-- The data memory of `95_test_vectors.md` section 2.5: the words `0x8899aabb` at 0x2000 and `0x11223344` at 0x2004. -/
def dataMemory : Memory :=
  [ (0x2000, 0xbb#8), (0x2001, 0xaa#8), (0x2002, 0x99#8), (0x2003, 0x88#8), (0x2004, 0x44#8), (0x2005, 0x33#8), (0x2006, 0x22#8),
    (0x2007, 0x11#8) ]

/-- The conditions of Part 2: the word at `pc` in `{r, x}` memory, the data memory `{r, w}` at 0x2000 .. 0x2007, nothing elsewhere, the
given registers. -/
def bench (pc w : Word) (regs : List (Reg × Word)) : State :=
  regs.foldl (fun s p => s.setReg p.1 p.2)
    { regs := Vector.replicate 31 0#32
      pc := pc
      mem := writeLE dataMemory pc.toNat w 4
      status := .running
      platform := ⟨[⟨pc.toNat, 4, .rx⟩, ⟨0x2000, 8, .rw⟩], 0x00010000#32⟩ }

/-- The step gives a next state, and it satisfies the test. -/
def stepsTo (s : State) (test : State → Bool) : Bool :=
  match step s with
  | .next t => test t
  | .fault _ => false
  | .refused _ => false

theorem exists_of_stepsTo {s : State} {test : State → Bool} (h : stepsTo s test = true) : ∃ t, step s = .next t ∧ test t = true := by
  unfold stepsTo at h
  split at h
  · exact ⟨_, by assumption, h⟩
  · cases h
  · cases h

/-- After one step from the conditions of Part 2 the machine runs on at `pc'` and register `r` holds `v`. -/
def gives (w : Word) (regs : List (Reg × Word)) (r : Reg) (v : Word) (pc' : Word) : Bool :=
  stepsTo (bench 0x1000#32 w regs) fun t => t.reg r == v && t.pc == pc' && t.status == .running

/-- After one step from the conditions of Part 2 the bytes from `a` on are these and the next instruction follows. -/
def stores (w : Word) (regs : List (Reg × Word)) (a : Nat) (bytes : List Byte) : Bool :=
  stepsTo (bench 0x1000#32 w regs) fun t =>
    (List.range bytes.length).map (fun k => t.mem.read (a + k)) == bytes && t.pc == 0x1004#32 && t.status == .running

/-- One step from the conditions of Part 2 records this exception and changes nothing else. -/
def raises (w : Word) (regs : List (Reg × Word)) (e : Exception) (info : Word) : Bool :=
  stepsTo (bench 0x1000#32 w regs) fun t =>
    t == { bench 0x1000#32 w regs with status := .faulted e 0x1000#32 info }

/-! ## Well-formedness refuses what has no encoding (`30_encoding.md` R91) -/

theorem test_imm12_too_large_refused : (Instr.addi 5#5 5#5 2048#32).wellFormed = false := by decide
theorem test_imm12_too_small_refused : (Instr.sw 5#5 5#5 (-2049#32)).wellFormed = false := by decide
theorem test_shift_by_32_refused : (Instr.slli 5#5 5#5 32#32).wellFormed = false := by decide
theorem test_upper_with_low_bits_refused : (Instr.lui 5#5 0x12345001#32).wellFormed = false := by decide
theorem test_odd_branch_offset_refused : (Instr.beq 5#5 6#5 3#32).wellFormed = false := by decide
theorem test_far_branch_offset_refused : (Instr.bne 5#5 6#5 4096#32).wellFormed = false := by decide
theorem test_odd_jump_offset_refused : (Instr.jal 1#5 (-1#32)).wellFormed = false := by decide
theorem test_far_jump_offset_refused : (Instr.jal 1#5 1048576#32).wellFormed = false := by decide

/-! ## Decoding: one word for each instruction, its fields written out as R85 gives them -/

theorem test_decode_add : decode 0b0000000_00110_00101_000_00111_0110011#32 = .ok (.add 7#5 5#5 6#5) := by decide
theorem test_decode_sub : decode 0b0100000_00110_00101_000_00111_0110011#32 = .ok (.sub 7#5 5#5 6#5) := by decide
theorem test_decode_slt : decode 0b0000000_00110_00101_010_00111_0110011#32 = .ok (.slt 7#5 5#5 6#5) := by decide
theorem test_decode_sltu : decode 0b0000000_00110_00101_011_00111_0110011#32 = .ok (.sltu 7#5 5#5 6#5) := by decide
theorem test_decode_and : decode 0b0000000_00110_00101_111_00111_0110011#32 = .ok (.and 7#5 5#5 6#5) := by decide
theorem test_decode_or : decode 0b0000000_00110_00101_110_00111_0110011#32 = .ok (.or 7#5 5#5 6#5) := by decide
theorem test_decode_xor : decode 0b0000000_00110_00101_100_00111_0110011#32 = .ok (.xor 7#5 5#5 6#5) := by decide
theorem test_decode_sll : decode 0b0000000_00110_00101_001_00111_0110011#32 = .ok (.sll 7#5 5#5 6#5) := by decide
theorem test_decode_srl : decode 0b0000000_00110_00101_101_00111_0110011#32 = .ok (.srl 7#5 5#5 6#5) := by decide
theorem test_decode_sra : decode 0b0100000_00110_00101_101_00111_0110011#32 = .ok (.sra 7#5 5#5 6#5) := by decide
theorem test_decode_jalr : decode 0b111111111111_00001_000_00001_1100111#32 = .ok (.jalr 1#5 1#5 (-1#32)) := by decide
theorem test_decode_lw : decode 0b000000001100_01001_010_00001_0000011#32 = .ok (.lw 1#5 9#5 12#32) := by decide
theorem test_decode_lh : decode 0b000000001100_01001_001_00001_0000011#32 = .ok (.lh 1#5 9#5 12#32) := by decide
theorem test_decode_lhu : decode 0b000000001100_01001_101_00001_0000011#32 = .ok (.lhu 1#5 9#5 12#32) := by decide
theorem test_decode_lb : decode 0b000000001100_01001_000_00001_0000011#32 = .ok (.lb 1#5 9#5 12#32) := by decide
theorem test_decode_lbu : decode 0b000000001100_01001_100_00001_0000011#32 = .ok (.lbu 1#5 9#5 12#32) := by decide
theorem test_decode_addi : decode 0b100000000000_00101_000_00111_0010011#32 = .ok (.addi 7#5 5#5 (-2048#32)) := by decide
theorem test_decode_slti : decode 0b100000000000_00101_010_00111_0010011#32 = .ok (.slti 7#5 5#5 (-2048#32)) := by decide
theorem test_decode_sltiu : decode 0b100000000000_00101_011_00111_0010011#32 = .ok (.sltiu 7#5 5#5 (-2048#32)) := by decide
theorem test_decode_andi : decode 0b100000000000_00101_111_00111_0010011#32 = .ok (.andi 7#5 5#5 (-2048#32)) := by decide
theorem test_decode_ori : decode 0b100000000000_00101_110_00111_0010011#32 = .ok (.ori 7#5 5#5 (-2048#32)) := by decide
theorem test_decode_xori : decode 0b100000000000_00101_100_00111_0010011#32 = .ok (.xori 7#5 5#5 (-2048#32)) := by decide
theorem test_decode_slli : decode 0b0000000_11111_00101_001_00111_0010011#32 = .ok (.slli 7#5 5#5 31#32) := by decide
theorem test_decode_srli : decode 0b0000000_11111_00101_101_00111_0010011#32 = .ok (.srli 7#5 5#5 31#32) := by decide
theorem test_decode_srai : decode 0b0100000_11111_00101_101_00111_0010011#32 = .ok (.srai 7#5 5#5 31#32) := by decide
theorem test_decode_sw : decode 0b1111111_00101_00110_010_11101_0100011#32 = .ok (.sw 5#5 6#5 (-3#32)) := by decide
theorem test_decode_sh : decode 0b1111111_00101_00110_001_11101_0100011#32 = .ok (.sh 5#5 6#5 (-3#32)) := by decide
theorem test_decode_sb : decode 0b1111111_00101_00110_000_11101_0100011#32 = .ok (.sb 5#5 6#5 (-3#32)) := by decide
theorem test_decode_lui : decode 0b00010010001101000101_00101_0110111#32 = .ok (.lui 5#5 0x12345000#32) := by decide
theorem test_decode_auipc : decode 0b00010010001101000101_00101_0010111#32 = .ok (.auipc 5#5 0x12345000#32) := by decide
theorem test_decode_beq : decode 0b1_111111_00110_00101_000_1100_1_1100011#32 = .ok (.beq 5#5 6#5 (-8#32)) := by decide
theorem test_decode_bne : decode 0b1_111111_00110_00101_001_1100_1_1100011#32 = .ok (.bne 5#5 6#5 (-8#32)) := by decide
theorem test_decode_blt : decode 0b1_111111_00110_00101_100_1100_1_1100011#32 = .ok (.blt 5#5 6#5 (-8#32)) := by decide
theorem test_decode_bge : decode 0b1_111111_00110_00101_101_1100_1_1100011#32 = .ok (.bge 5#5 6#5 (-8#32)) := by decide
theorem test_decode_bltu : decode 0b1_111111_00110_00101_110_1100_1_1100011#32 = .ok (.bltu 5#5 6#5 (-8#32)) := by decide
theorem test_decode_bgeu : decode 0b1_111111_00110_00101_111_1100_1_1100011#32 = .ok (.bgeu 5#5 6#5 (-8#32)) := by decide
theorem test_decode_jal : decode 0b1_1111111100_1_11111111_00001_1101111#32 = .ok (.jal 1#5 (-8#32)) := by decide

/-- Every bit of a B- and a J-immediate in its own place (section 2.2). -/
theorem test_scattered_immediates :
    immB 0x000050e3#32 = 0x800#32 ∧ immB 0x00628863#32 = 16#32 ∧ immB 0x80000063#32 = (-4096#32) ∧ immB 0x7e000fe3#32 = 4094#32 ∧
    immJ 0x001002ef#32 = 0x800#32 ∧ immJ 0x000012ef#32 = 0x1000#32 ∧ immJ 0x000802ef#32 = 0x80000#32 ∧
    immJ 0x7ffff0ef#32 = 1048574#32 ∧ immJ 0x800000ef#32 = (-1048576#32) := by decide

/-- Words of section 2.1 that match no row, one for each reason. -/
theorem test_illegal_words :
    ([0x00000000, 0xffffffff, 0x123452b3, 0x02b50533, 0x40002033, 0x40007033, 0x80000033, 0x02029293, 0x40029293, 0x2002d293, 0x00003003,
      0x00006003, 0x00007003, 0x00003023, 0x00004023, 0x00002063, 0x00003063, 0x00001067, 0xfffff0e7, 0x00000073, 0x00100073, 0x30200073,
      0x10500073, 0xc0002573, 0x0ff0000f, 0x0000100f, 0x1000202f, 0x00002007, 0x00000053, 0x0000000b, 0x00000001, 0x00008082].all
        fun w : Nat => decodeTableWord 32 w == none) = true := by decide

/-- Bytes lie in memory lowest first (`20_memory.md` R43), and bytes that are no whole instruction are refused by name. -/
theorem test_decode_bytes :
    decodeBytes [0xb3#8, 0x83#8, 0x62#8, 0x40#8, 0x13#8] = .ok (.sub 7#5 5#5 6#5, [0x13#8]) ∧
    decodeBytes [0xb3#8, 0x83#8, 0x62#8] = .error (.tooFewBytes 3) := by decide

/-! ## One step: at most two theorems for each instruction -/

theorem test_add_wraps_to_negative : gives 0x006283b3#32 [(5#5, 0x7fffffff#32), (6#5, 0x00000001#32)] 7#5 0x80000000#32 0x00001004#32 = true := by decide
theorem test_add_to_zero_register : gives 0x00628033#32 [(5#5, 0x00000005#32), (6#5, 0x00000007#32)] 0#5 0x00000000#32 0x00001004#32 = true := by decide
theorem test_sub_order_and_borrow : gives 0x406283b3#32 [(5#5, 0x00000005#32), (6#5, 0x00000007#32)] 7#5 0xfffffffe#32 0x00001004#32 = true := by decide
theorem test_sub_negates_its_own_register : gives 0x407003b3#32 [(7#5, 0x00000005#32)] 7#5 0xfffffffb#32 0x00001004#32 = true := by decide
theorem test_slt_is_signed : gives 0x0062a3b3#32 [(5#5, 0x80000000#32), (6#5, 0x7fffffff#32)] 7#5 0x00000001#32 0x00001004#32 = true := by decide
theorem test_slt_equal_is_false : gives 0x0062a3b3#32 [(5#5, 0x00000005#32), (6#5, 0x00000005#32)] 7#5 0x00000000#32 0x00001004#32 = true := by decide
theorem test_sltu_is_unsigned : gives 0x0062b3b3#32 [(5#5, 0xffffffff#32), (6#5, 0x00000001#32)] 7#5 0x00000000#32 0x00001004#32 = true := by decide
theorem test_sltu_from_zero : gives 0x006033b3#32 [(6#5, 0x00000009#32)] 7#5 0x00000001#32 0x00001004#32 = true := by decide
theorem test_and : gives 0x0062f3b3#32 [(5#5, 0xff00ff00#32), (6#5, 0x0ff00ff0#32)] 7#5 0x0f000f00#32 0x00001004#32 = true := by decide
theorem test_or : gives 0x0062e3b3#32 [(5#5, 0xff00ff00#32), (6#5, 0x0ff00ff0#32)] 7#5 0xfff0fff0#32 0x00001004#32 = true := by decide
theorem test_xor : gives 0x0062c3b3#32 [(5#5, 0xff00ff00#32), (6#5, 0x0ff00ff0#32)] 7#5 0xf0f0f0f0#32 0x00001004#32 = true := by decide
theorem test_sll_uses_low_five_bits : gives 0x006293b3#32 [(5#5, 0x12345678#32), (6#5, 0xffffffe4#32)] 7#5 0x23456780#32 0x00001004#32 = true := by decide
theorem test_sll_by_32_is_by_0 : gives 0x006293b3#32 [(5#5, 0x00000001#32), (6#5, 0x00000020#32)] 7#5 0x00000001#32 0x00001004#32 = true := by decide
theorem test_srl_fills_with_zero : gives 0x0062d3b3#32 [(5#5, 0x80000000#32), (6#5, 0x00000004#32)] 7#5 0x08000000#32 0x00001004#32 = true := by decide
theorem test_sra_fills_with_sign : gives 0x4062d3b3#32 [(5#5, 0x80000000#32), (6#5, 0x0000001f#32)] 7#5 0xffffffff#32 0x00001004#32 = true := by decide
theorem test_sra_rounds_down : gives 0x4062d3b3#32 [(5#5, 0xfffffff9#32), (6#5, 0x00000001#32)] 7#5 0xfffffffc#32 0x00001004#32 = true := by decide
theorem test_jalr_reads_base_before_link : gives 0x000282e7#32 [(5#5, 0x00002000#32)] 5#5 0x00001004#32 0x00002000#32 = true := by decide
theorem test_jalr_misaligned_target : raises 0x003280e7#32 [(5#5, 0x00002000#32)] .instructionAddressMisaligned 0x00002002#32 = true := by decide
theorem test_lw_negative_displacement : gives 0xffc2a383#32 [(5#5, 0x00002008#32)] 7#5 0x11223344#32 0x00001004#32 = true := by decide
theorem test_lw_misaligned_first : raises 0x0012a383#32 [(5#5, 0x00005000#32)] .loadAddressMisaligned 0x00005001#32 = true := by decide
theorem test_lh_extends_sign : gives 0x00229383#32 [(5#5, 0x00002000#32)] 7#5 0xffff8899#32 0x00001004#32 = true := by decide
theorem test_lh_misaligned : raises 0x00129383#32 [(5#5, 0x00002000#32)] .loadAddressMisaligned 0x00002001#32 = true := by decide
theorem test_lhu_extends_zero : gives 0x0002d383#32 [(5#5, 0x00002000#32)] 7#5 0x0000aabb#32 0x00001004#32 = true := by decide
theorem test_lhu_no_memory : raises 0x0082d383#32 [(5#5, 0x00002000#32)] .loadAccessFault 0x00002008#32 = true := by decide
theorem test_lb_extends_sign : gives 0x00328383#32 [(5#5, 0x00002000#32)] 7#5 0xffffff88#32 0x00001004#32 = true := by decide
theorem test_lb_no_memory : raises 0xfff28383#32 [(5#5, 0x00002000#32)] .loadAccessFault 0x00001fff#32 = true := by decide
theorem test_lbu_extends_zero : gives 0x7ff2c383#32 [(5#5, 0x00001801#32)] 7#5 0x000000bb#32 0x00001004#32 = true := by decide
theorem test_addi_extends_sign_and_wraps : gives 0x80028393#32 [(5#5, 0x00000800#32)] 7#5 0x00000000#32 0x00001004#32 = true := by decide
theorem test_addi_largest_immediate : gives 0x7ff28393#32 [(5#5, 0x7ffff801#32)] 7#5 0x80000000#32 0x00001004#32 = true := by decide
theorem test_slti_is_signed : gives 0xfff2a393#32 [(5#5, 0x00000005#32)] 7#5 0x00000000#32 0x00001004#32 = true := by decide
theorem test_sltiu_compares_extended_immediate : gives 0xfff2b393#32 [(5#5, 0x00000005#32)] 7#5 0x00000001#32 0x00001004#32 = true := by decide
theorem test_andi : gives 0xff02f393#32 [(5#5, 0x12345678#32)] 7#5 0x12345670#32 0x00001004#32 = true := by decide
theorem test_ori : gives 0xf002e393#32 [(5#5, 0x12345678#32)] 7#5 0xffffff78#32 0x00001004#32 = true := by decide
theorem test_xori : gives 0xfff2c393#32 [(5#5, 0x12345678#32)] 7#5 0xedcba987#32 0x00001004#32 = true := by decide
theorem test_slli : gives 0x00429393#32 [(5#5, 0xf2345678#32)] 7#5 0x23456780#32 0x00001004#32 = true := by decide
theorem test_srli : gives 0x0042d393#32 [(5#5, 0xf2345678#32)] 7#5 0x0f234567#32 0x00001004#32 = true := by decide
theorem test_srai : gives 0x4042d393#32 [(5#5, 0xf2345678#32)] 7#5 0xff234567#32 0x00001004#32 = true := by decide
theorem test_sw_little_endian : stores 0x00532023#32 [(5#5, 0x11223344#32), (6#5, 0x00002000#32)] 0x2000 [0x44#8, 0x33#8, 0x22#8, 0x11#8, 0x44#8] = true := by decide
theorem test_sw_to_code_refused : raises 0x00532023#32 [(5#5, 0x11223344#32), (6#5, 0x00001000#32)] .storeAccessFault 0x00001000#32 = true := by decide
theorem test_sh_leaves_other_half : stores 0x00531123#32 [(5#5, 0x11223344#32), (6#5, 0x00002000#32)] 0x2000 [0xbb#8, 0xaa#8, 0x44#8, 0x33#8, 0x44#8] = true := by decide
theorem test_sh_misaligned : raises 0x005310a3#32 [(5#5, 0x11223344#32), (6#5, 0x00002000#32)] .storeAddressMisaligned 0x00002001#32 = true := by decide
theorem test_sb_low_byte_only : stores 0x005301a3#32 [(5#5, 0x123456ab#32), (6#5, 0x00002000#32)] 0x2002 [0x99#8, 0xab#8, 0x44#8] = true := by decide
theorem test_sb_no_memory : raises 0xfe530fa3#32 [(5#5, 0x000000ab#32), (6#5, 0x00002000#32)] .storeAccessFault 0x00001fff#32 = true := by decide
theorem test_lui : gives 0x123452b7#32 [(5#5, 0xffffffff#32)] 5#5 0x12345000#32 0x00001004#32 = true := by decide
theorem test_auipc_wraps : gives 0xfffff297#32 [] 5#5 0x00000000#32 0x00001004#32 = true := by decide
theorem test_beq_taken : gives 0x00628863#32 [(5#5, 0x00000005#32), (6#5, 0x00000005#32)] 5#5 0x00000005#32 0x00001010#32 = true := by decide
theorem test_beq_misaligned_target : raises 0x00528163#32 [(5#5, 0x00000001#32)] .instructionAddressMisaligned 0x00001002#32 = true := by decide
theorem test_bne_taken : gives 0x00629863#32 [(5#5, 0x00000005#32), (6#5, 0x00000006#32)] 5#5 0x00000005#32 0x00001010#32 = true := by decide
theorem test_bne_not_taken_never_raises : gives 0x00529163#32 [(5#5, 0x00000001#32)] 5#5 0x00000001#32 0x00001004#32 = true := by decide
theorem test_blt_taken_signed : gives 0x0062c863#32 [(5#5, 0xffffffff#32), (6#5, 0x00000001#32)] 6#5 0x00000001#32 0x00001010#32 = true := by decide
theorem test_blt_equal_not_taken : gives 0x0062c863#32 [(5#5, 0x00000005#32), (6#5, 0x00000005#32)] 6#5 0x00000005#32 0x00001004#32 = true := by decide
theorem test_bge_equal_taken : gives 0x0062d863#32 [(5#5, 0x00000005#32), (6#5, 0x00000005#32)] 6#5 0x00000005#32 0x00001010#32 = true := by decide
theorem test_bge_signed_not_taken : gives 0x0062d863#32 [(5#5, 0xffffffff#32), (6#5, 0x00000001#32)] 6#5 0x00000001#32 0x00001004#32 = true := by decide
theorem test_bltu_taken : gives 0x0062e863#32 [(5#5, 0x00000005#32), (6#5, 0x00000006#32)] 6#5 0x00000006#32 0x00001010#32 = true := by decide
theorem test_bltu_unsigned_not_taken : gives 0x0062e863#32 [(5#5, 0xffffffff#32), (6#5, 0x00000001#32)] 6#5 0x00000001#32 0x00001004#32 = true := by decide
theorem test_bgeu_unsigned_taken : gives 0x0062f863#32 [(5#5, 0xffffffff#32), (6#5, 0x00000001#32)] 6#5 0x00000001#32 0x00001010#32 = true := by decide
theorem test_bgeu_not_taken : gives 0x0062f863#32 [(5#5, 0x00000005#32), (6#5, 0x00000006#32)] 6#5 0x00000006#32 0x00001004#32 = true := by decide
theorem test_jal_link_and_target : gives 0x001002ef#32 [] 5#5 0x00001004#32 0x00001800#32 = true := by decide
theorem test_jal_misaligned_target : raises 0xfffff0ef#32 [] .instructionAddressMisaligned 0x00000ffe#32 = true := by decide

/-! ## The machine as a whole -/

/-- A word put where the next step fetches it is fetched and run, as the first instruction after reset. -/
theorem test_runs_from_reset :
    stepsTo (State.reset.withFetchWord 32 0xfff00293) (fun t => t.reg 5#5 == 0xffffffff#32 && t.pc == 0x1004#32) = true := by decide

/-- The fetch at the far end of executable memory, then past it (section 2.12). -/
theorem test_fetch_past_executable_memory :
    stepsTo { State.reset with pc := 0x2000#32, mem := [(0x2000, 0x13#8)] }
      (fun t => t.status == .faulted .instructionAccessFault 0x2000#32 0x2000#32 && t.pc == 0x2000#32) = true := by decide

/-- Before fetching, a running machine at `END_PC` halts, whatever stands there (R242). -/
theorem test_halts_before_fetching :
    stepsTo { State.reset with pc := 0#32 } (fun t => t == { State.reset with pc := 0#32, status := .halted }) = true := by decide

/-- The pc wraps: after the instruction at 0xfffffffc it is 0 (`10_state.md` R25). -/
theorem test_pc_wraps :
    stepsTo (bench 0xfffffffc#32 0x004000ef#32 []) (fun t => t.pc == 0#32 && t.reg 1#5 == 0#32) = true := by decide

/-- Writing what an unlisted byte reads as takes the entry away again. -/
theorem test_memory_stays_canonical :
    (((Memory.write [] 0x2001 0x7f#8).write 0x2000 0x01#8).write 0x2001 0x00#8) = [(0x2000, 0x01#8)] := by decide

/-- The source's own fragment (S6) assembles; an odd offset, a pseudo-instruction, an unknown register and a label used twice do not
(R90 to R92). -/
theorem test_assembler :
    assembleText 0x1000#32 "LABEL: addi t0, t0, 1\nsub t2, zero, t2\nblt t0, t1, LABEL" =
      .ok [0x00128293#32, 0x407003b3#32, 0xfe62cce3#32] ∧
    assembleText 0x1000#32 "jal ra, 3" = .error .operandOutOfRange ∧
    assembleText 0x1000#32 "nop" = .error .unknownMnemonic ∧
    assembleText 0x1000#32 "add x32, x0, x0" = .error .unknownRegister ∧
    assembleText 0x1000#32 "L: lui t0, 0x12345\nL: lw ra, 12(s1)" = .error .duplicateLabel := by decide

/-! ## Witnesses: what meets the hypotheses of the statements -/

theorem accessible_of_allowed {s : State} {k : AccessKind} {a n : Nat} (h : allowed s.platform k a n = true) : Accessible s k a n :=
  (allowed_iff_accessible s k a n).mp h

theorem not_accessible_of_not_allowed {s : State} {k : AccessKind} {a n : Nat} (h : allowed s.platform k a n = false) :
    ¬ Accessible s k a n := fun h' => by simp [(allowed_iff_accessible s k a n).mpr h'] at h

/-- Well-formed instructions at both ends of every range. -/
theorem witness_DecodeOfEncodeIsIdentity :
    (Instr.addi 31#5 0#5 (-2048#32)).wellFormed = true ∧ (Instr.sb 31#5 0#5 2047#32).wellFormed = true ∧
    (Instr.slli 31#5 0#5 0#32).wellFormed = true ∧ (Instr.srai 31#5 0#5 31#32).wellFormed = true ∧
    (Instr.lui 31#5 0#32).wellFormed = true ∧ (Instr.auipc 31#5 0xfffff000#32).wellFormed = true ∧
    (Instr.beq 31#5 0#5 (-4096#32)).wellFormed = true ∧ (Instr.bgeu 31#5 0#5 4094#32).wellFormed = true ∧
    (Instr.jal 31#5 (-1048576#32)).wellFormed = true ∧ (Instr.jal 31#5 1048574#32).wellFormed = true := by decide

theorem witness_EncodeOfDecodeIsIdentity : decode 0x406283b3#32 = .ok (.sub 7#5 5#5 6#5) := by decide

/-- A word that decodes, a word that matches a row, a word that matches none. -/
theorem witness_DecodeAgreesWithOpcodeTable :
    decode 0x4002d293#32 = .ok (.srai 5#5 5#5 0#32) ∧ (∃ row ∈ opcodeTable, 0x4002d293#32 &&& row.mask = row.pattern) ∧
    (∀ row ∈ opcodeTable, 0x2002d293#32 &&& row.mask ≠ row.pattern) := by decide

/-- Upper fields of a constant shift next to the legal ones. -/
theorem witness_ConstantShifts : 0b0000001#7 ≠ 0b0000000#7 ∧ 0b0100001#7 ≠ 0b0100000#7 ∧ 0b0100001#7 ≠ 0b0000000#7 := by decide

/-- A state to load from and store to: data at 0x2000 .. 0x2007. -/
def dataBench (base : Word) : State := bench 0x1000#32 0x00000013#32 [(5#5, base)]

/-- `lw`: the last word of memory, an address one past it, a misaligned address inside it. -/
theorem witness_LoadWord :
    (effectiveAddress (dataBench 0x2000#32) 5#5 4#32).toNat = 0x2004 ∧ Accessible (dataBench 0x2000#32) .load 0x2004 4 ∧
    (effectiveAddress (dataBench 0x2000#32) 5#5 8#32).toNat = 0x2008 ∧ ¬ Accessible (dataBench 0x2000#32) .load 0x2008 4 ∧
    (effectiveAddress (dataBench 0x2000#32) 5#5 3#32).toNat % 4 ≠ 0 :=
  ⟨by decide, accessible_of_allowed (by decide), by decide, not_accessible_of_not_allowed (by decide), by decide⟩

/-- `lh` and `lhu`: the last half-word, one past it, an odd address. -/
theorem witness_LoadHalfWord :
    (effectiveAddress (dataBench 0x2000#32) 5#5 6#32).toNat = 0x2006 ∧ Accessible (dataBench 0x2000#32) .load 0x2006 2 ∧
    (effectiveAddress (dataBench 0x2000#32) 5#5 8#32).toNat = 0x2008 ∧ ¬ Accessible (dataBench 0x2000#32) .load 0x2008 2 ∧
    (effectiveAddress (dataBench 0x2000#32) 5#5 7#32).toNat % 2 ≠ 0 :=
  ⟨by decide, accessible_of_allowed (by decide), by decide, not_accessible_of_not_allowed (by decide), by decide⟩

/-- `lb` and `lbu`: the last byte, and the byte before the first. -/
theorem witness_LoadByte :
    (effectiveAddress (dataBench 0x2000#32) 5#5 7#32).toNat = 0x2007 ∧ Accessible (dataBench 0x2000#32) .load 0x2007 1 ∧
    (effectiveAddress (dataBench 0x2000#32) 5#5 (-1#32)).toNat = 0x1fff ∧ ¬ Accessible (dataBench 0x2000#32) .load 0x1fff 1 :=
  ⟨by decide, accessible_of_allowed (by decide), by decide, not_accessible_of_not_allowed (by decide)⟩

/-- `sw`: the last word of data, the code (which is not writable), a misaligned address; the offset as its two pieces. -/
theorem witness_StoreWord :
    (0b0000000#7 ++ 0b00100#5 : BitVec 12).signExtend 32 = 4#32 ∧
    (effectiveAddress (dataBench 0x2000#32) 5#5 4#32).toNat = 0x2004 ∧ Accessible (dataBench 0x2000#32) .store 0x2004 4 ∧
    (effectiveAddress (dataBench 0x0ffc#32) 5#5 4#32).toNat = 0x1000 ∧ ¬ Accessible (dataBench 0x0ffc#32) .store 0x1000 4 ∧
    (effectiveAddress (dataBench 0x2001#32) 5#5 4#32).toNat % 4 ≠ 0 :=
  ⟨by decide, by decide, accessible_of_allowed (by decide), by decide, not_accessible_of_not_allowed (by decide), by decide⟩

/-- `sh`: the last half-word, one past it, an odd address. -/
theorem witness_StoreHalfWord :
    (0b0000000#7 ++ 0b00110#5 : BitVec 12).signExtend 32 = 6#32 ∧
    (effectiveAddress (dataBench 0x2000#32) 5#5 6#32).toNat = 0x2006 ∧ Accessible (dataBench 0x2000#32) .store 0x2006 2 ∧
    (effectiveAddress (dataBench 0x2002#32) 5#5 6#32).toNat = 0x2008 ∧ ¬ Accessible (dataBench 0x2002#32) .store 0x2008 2 ∧
    (effectiveAddress (dataBench 0x2001#32) 5#5 6#32).toNat % 2 ≠ 0 :=
  ⟨by decide, by decide, accessible_of_allowed (by decide), by decide, not_accessible_of_not_allowed (by decide), by decide⟩

/-- `sb`: the first byte, and the byte before it. -/
theorem witness_StoreByte :
    (0b1111111#7 ++ 0b11111#5 : BitVec 12).signExtend 32 = -1#32 ∧
    (effectiveAddress (dataBench 0x2001#32) 5#5 (-1#32)).toNat = 0x2000 ∧ Accessible (dataBench 0x2001#32) .store 0x2000 1 ∧
    (effectiveAddress (dataBench 0x2000#32) 5#5 (-1#32)).toNat = 0x1fff ∧ ¬ Accessible (dataBench 0x2000#32) .store 0x1fff 1 :=
  ⟨by decide, by decide, accessible_of_allowed (by decide), by decide, not_accessible_of_not_allowed (by decide)⟩

/-- Two registers to compare. -/
def compareBench (a b : Word) : State := bench 0x1000#32 0x00000013#32 [(5#5, a), (6#5, b)]

/-- The pieces of the offsets -8 (aligned target) and 2 (misaligned target), and an aligned target outside memory. -/
theorem witness_branch_targets :
    branchImm 1#1 0b111111#6 0b1100#4 1#1 = (-8#32) ∧ ((compareBench 0#32 0#32).pc + (-8#32)).toNat % 4 = 0 ∧
    branchImm 0#1 0b000000#6 0b0001#4 0#1 = 2#32 ∧ ((compareBench 0#32 0#32).pc + 2#32).toNat % 4 ≠ 0 := by decide

theorem witness_EqualityBranches :
    (∀ k < 32, ((compareBench 5#32 5#32).reg 5#5).getLsbD k = ((compareBench 5#32 5#32).reg 6#5).getLsbD k) ∧
    ∃ k < 32, ((compareBench 5#32 0x80000005#32).reg 5#5).getLsbD k ≠ ((compareBench 5#32 0x80000005#32).reg 6#5).getLsbD k :=
  ⟨by decide, 31, by decide⟩

theorem witness_SignedBranches :
    ((compareBench 0x80000000#32 0x7fffffff#32).reg 5#5).toInt < ((compareBench 0x80000000#32 0x7fffffff#32).reg 6#5).toInt ∧
    ((compareBench 5#32 5#32).reg 6#5).toInt ≤ ((compareBench 5#32 5#32).reg 5#5).toInt := by decide

theorem witness_UnsignedBranches :
    ((compareBench 0x7fffffff#32 0x80000000#32).reg 5#5).toNat < ((compareBench 0x7fffffff#32 0x80000000#32).reg 6#5).toNat ∧
    ((compareBench 5#32 5#32).reg 6#5).toNat ≤ ((compareBench 5#32 5#32).reg 5#5).toNat := by decide

/-- `jal`: an aligned target without memory that is not `END_PC`, and a misaligned one; the offset as its four pieces. -/
theorem witness_JumpAndLink :
    (0#1 ++ 0#8 ++ 1#1 ++ 0#10 ++ 0#1 : BitVec 21).signExtend 32 = 0x800#32 ∧
    (BitVec.ofInt 32 (((bench 0x1000#32 0x001002ef#32 []).pc.toNat : Int) + (0x800#32).toInt) : Word) = 0x1800#32 ∧
    (0x1800#32).toNat % 4 = 0 ∧ (bench 0x1000#32 0x001002ef#32 []).status = .running ∧
    0x1800#32 ≠ (bench 0x1000#32 0x001002ef#32 []).platform.endPc ∧
    ¬ Accessible (bench 0x1000#32 0x001002ef#32 []) .fetch 0x1800 4 ∧
    (BitVec.ofInt 32 (((bench 0x1000#32 0x002000ef#32 []).pc.toNat : Int) + (2#32).toInt) : Word).toNat % 4 ≠ 0 :=
  ⟨by decide, by decide, by decide, by decide, by decide, not_accessible_of_not_allowed (by decide), by decide⟩

/-- `jalr`: an odd sum whose target is aligned and without memory, and a sum whose target is misaligned. -/
theorem witness_JumpAndLinkRegister :
    (BitVec.ofNat 32 (((dataBench 0x3000#32).reg 5#5 + (1#12).signExtend 32).toNat / 2 * 2) : Word).toNat = 0x3000 ∧
    (dataBench 0x3000#32).status = .running ∧ 0x3000#32 ≠ (dataBench 0x3000#32).platform.endPc ∧
    ¬ Accessible (dataBench 0x3000#32) .fetch 0x3000 4 ∧
    (BitVec.ofNat 32 (((dataBench 0x3000#32).reg 5#5 + (3#12).signExtend 32).toNat / 2 * 2) : Word).toNat % 4 ≠ 0 :=
  ⟨by decide, by decide, by decide, not_accessible_of_not_allowed (by decide), by decide⟩

theorem canFetch_of {s : State} (h : s.status = .running ∧ s.pc ≠ s.platform.endPc ∧ s.pc.toNat % 4 = 0)
    (h' : allowed s.platform .fetch s.pc.toNat 4 = true) : CanFetch s :=
  ⟨h.1, h.2.1, h.2.2, accessible_of_allowed h'⟩

theorem witness_StepRunsTheDecodedInstruction :
    CanFetch (bench 0x1000#32 0x406283b3#32 []) ∧
    decode (wordAt (bench 0x1000#32 0x406283b3#32 []).mem (bench 0x1000#32 0x406283b3#32 []).pc.toNat) = .ok (.sub 7#5 5#5 6#5) :=
  ⟨canFetch_of (by decide) (by decide), by decide⟩

/-- A running machine that does not stand at `END_PC`, with a misaligned pc inside executable memory, with an aligned pc just past it,
and at the last executable word, which is no instruction. -/
theorem witness_FetchChecksInOrder :
    (∀ pc, { State.reset with pc := pc }.status = .running) ∧
    0x1ffe#32 ≠ State.reset.platform.endPc ∧ 0x2000#32 ≠ State.reset.platform.endPc ∧ 0x1ffc#32 ≠ State.reset.platform.endPc ∧
    (0x1ffe#32).toNat % 4 ≠ 0 ∧ (0x2000#32).toNat % 4 = 0 ∧ ¬ Accessible { State.reset with pc := 0x2000#32 } .fetch 0x2000 4 ∧
    (0x1ffc#32).toNat % 4 = 0 ∧ Accessible { State.reset with pc := 0x1ffc#32 } .fetch 0x1ffc 4 ∧
    (∀ i, decode (wordAt { State.reset with pc := 0x1ffc#32 }.mem 0x1ffc) ≠ .ok i) :=
  ⟨fun _ => rfl, by decide, by decide, by decide, by decide, by decide, not_accessible_of_not_allowed (by decide), by decide,
    accessible_of_allowed (by decide), fun i h => by
    rw [show decode (wordAt State.reset.mem 0x1ffc) = .error (.illegalInstruction 0#32) by decide] at h
    cases h⟩

/-- An executable word that matches no row; each kind of word R87 lists. -/
theorem witness_UnlistedWordsAreIllegal :
    CanFetch State.reset ∧ (∀ row ∈ opcodeTable, wordAt State.reset.mem State.reset.pc.toNat &&& row.mask ≠ row.pattern) ∧
    (0x00008082#32).extractLsb' 0 2 ≠ 0b11#2 ∧ (0x0ff0000f#32).extractLsb' 0 7 = 0b0001111#7 ∧
    (0x02b50533#32).extractLsb' 0 7 = 0b0110011#7 ∧ (0x02b50533#32).extractLsb' 25 7 = 0b0000001#7 :=
  ⟨canFetch_of (by decide) (by decide), by decide, by decide, by decide, by decide, by decide⟩

theorem witness_MachineHaltsAtEndPc :
    { State.reset with pc := 0#32 }.status = .running ∧ { State.reset with pc := 0#32 }.pc = { State.reset with pc := 0#32 }.platform.endPc := by
  decide

/-- A step that ends in `Faulted`: the illegal word at the reset address. -/
theorem witness_ExceptionsArePrecise :
    ∃ t, step State.reset = .next t ∧ t.status = .faulted .illegalInstruction 0x1000#32 0#32 := by
  obtain ⟨t, h, h'⟩ := exists_of_stepsTo (s := State.reset)
    (test := fun t => t.status == .faulted .illegalInstruction 0x1000#32 0#32) (by decide)
  exact ⟨t, h, by simpa using h'⟩

theorem witness_ZeroDestinationLosesOnlyTheResult :
    ∃ t, exec (.jal 1#5 8#32) State.reset = .next t ∧ t.pc = 0x1008#32 := ⟨_, rfl, by decide⟩

/-- A step that changes a register. -/
theorem witness_OnlyTheDestinationRegisterChanges :
    ∃ t, step (bench 0x1000#32 0xfff00293#32 []) = .next t ∧ t.reg 5#5 ≠ (bench 0x1000#32 0xfff00293#32 []).reg 5#5 := by
  obtain ⟨t, h, h'⟩ := exists_of_stepsTo (s := bench 0x1000#32 0xfff00293#32 [])
    (test := fun t => t.reg 5#5 != (bench 0x1000#32 0xfff00293#32 []).reg 5#5) (by decide)
  exact ⟨t, h, by simpa using h'⟩

/-- The state of the store tests. -/
def storeBench : State := bench 0x1000#32 0x00532023#32 [(5#5, 0x55667788#32), (6#5, 0x2000#32)]

/-- A step that changes a byte: the highest one a word store writes. -/
theorem witness_ChangedBytesWereStoredTo : ∃ t, step storeBench = .next t ∧ t.mem.read 0x2003 ≠ storeBench.mem.read 0x2003 := by
  obtain ⟨t, h, h'⟩ := exists_of_stepsTo (s := storeBench) (test := fun t => t.mem.read 0x2003 != storeBench.mem.read 0x2003) (by decide)
  exact ⟨t, h, by simpa using h'⟩

/-- A run of one step that stores, from an aligned pc. -/
theorem storeBench_run : ∃ t, Reaches storeBench t ∧ t.mem.read 0x2000 = 0x88#8 := by
  obtain ⟨t, h, h'⟩ := exists_of_stepsTo (s := storeBench) (test := fun t => t.mem.read 0x2000 == 0x88#8) (by decide)
  exact ⟨t, .further _ _ .start h, by simpa using h'⟩

theorem witness_ExecutableMemoryNeverChanges :
    permits (permAt storeBench.platform 0x1003) .fetch = true ∧ ∃ t, Reaches storeBench t ∧ t.mem.read 0x2000 = 0x88#8 :=
  ⟨by decide, storeBench_run⟩

theorem witness_ParametersNeverChange : ∃ t, Reaches storeBench t ∧ t.mem.read 0x2000 = 0x88#8 := storeBench_run

theorem witness_PcStaysAligned :
    storeBench.pc.toNat % 4 = 0 ∧ ∃ t, Reaches storeBench t ∧ t.mem.read 0x2000 = 0x88#8 := ⟨by decide, storeBench_run⟩

/-- A legal state that a step leaves by a store; one that a step leaves faulted is the state after reset. -/
theorem witness_StepKeepsTheMachineLegal : LegalState storeBench ∧ ∃ t, step storeBench = .next t ∧ t.status = .running := by
  obtain ⟨t, h, h'⟩ := exists_of_stepsTo (s := storeBench) (test := fun t => t.status == .running) (by decide)
  exact ⟨⟨by decide, by decide, by decide, by decide, trivial⟩, t, h, by simpa using h'⟩

/-- Parameters of a launch: a one-word program and one byte where there is no memory. -/
def params : LaunchParams where
  resetPc := 0x1000#32
  endPc := 0x1004#32
  memMap := [⟨0x1000, 4, .rx⟩, ⟨0x2000, 8, .rw⟩]
  initMem := imageCells 0x1000 [0x406283b3#32] ++ [(0x3000, 0x55#8)]
  initRegs := Vector.replicate 31 0#32

theorem witness_LaunchBuildsTheStartState :
    (params.resetPc.toNat % 4 = 0 ∧ params.endPc.toNat % 4 = 0) ∧
    permAt ⟨params.memMap, params.endPc⟩ 0x1000 ≠ .none ∧ permAt ⟨params.memMap, params.endPc⟩ 0x3000 = .none ∧
    ¬ ({ params with endPc := 0x1002#32 }.resetPc.toNat % 4 = 0 ∧ { params with endPc := 0x1002#32 }.endPc.toNat % 4 = 0) := by decide

/-- A launched state, and a run of one step from it. -/
theorem witness_LaunchedRunsStayLegal : ∃ s t, launch params = some s ∧ Reaches s t ∧ t.pc = 0x1004#32 :=
  ⟨_, _, rfl, .further _ _ .start rfl, by decide⟩

/-- The image of one word lies in memory, and its word 0 is that word. -/
theorem witness_LoadedImageReadsBack : ∃ s, launch params = some s ∧
    params.initMem = imageCells 0x1000 [0x406283b3#32] ++ [(0x3000, 0x55#8)] ∧
    (∀ a, 0x1000 ≤ a → a < 0x1000 + 4 * [0x406283b3#32].length → permAt s.platform a ≠ .none) ∧
    [0x406283b3#32][0]? = some 0x406283b3#32 := by
  refine ⟨_, rfl, rfl, ?_, rfl⟩
  intro a h h'
  have : ∀ k < 4, permAt ⟨params.memMap, params.endPc⟩ (0x1000 + k) ≠ .none := by decide
  have h'' : a < 0x1000 + 4 := h'
  have := this (a - 0x1000) (by omega)
  rwa [show 0x1000 + (a - 0x1000) = a by omega] at this

theorem witness_CanonicalMemoriesAreTheirBytes : Memory.wf dataMemory ∧ Memory.wf [] := by decide

/-- A word to store and to read back in pieces, at the last word of data. -/
theorem witness_MixedWidthAccesses :
    0x2004#32 = effectiveAddress storeBench 6#5 4#32 ∧ (0x2004#32).toNat % 4 = 0 ∧ Accessible storeBench .store (0x2004#32).toNat 4 ∧
    Accessible storeBench .load (0x2004#32).toNat 4 ∧ 7#5 ≠ 0#5 ∧ effectiveAddress storeBench 6#5 7#32 = 0x2004#32 + 3#32 ∧
    effectiveAddress storeBench 6#5 6#32 = 0x2004#32 + 2#32 ∧ effectiveAddress storeBench 6#5 5#32 = 0x2004#32 + 1#32 :=
  ⟨by decide, by decide, accessible_of_allowed (by decide), accessible_of_allowed (by decide), by decide, by decide, by decide, by decide⟩

/-- A write-only byte beside the program: it may differ. -/
def secretBench (b : Byte) : State where
  regs := Vector.replicate 31 0#32
  pc := 0x1000#32
  mem := writeLE [(0x4000, b)] 0x1000 0x00000013#32 4
  status := .running
  platform := ⟨[⟨0x1000, 4, .rx⟩, ⟨0x4000, 1, .w⟩], 0#32⟩

theorem witness_UnreadableMemoryIsNotObserved :
    SameVisible (secretBench 1#8) (secretBench 2#8) ∧ (secretBench 1#8).mem.read 0x4000 ≠ (secretBench 2#8).mem.read 0x4000 ∧
    ∃ t, step (secretBench 1#8) = .next t ∧ t.pc = 0x1004#32 := by
  refine ⟨⟨fun _ => rfl, rfl, rfl, rfl, fun a h => ?_⟩, by decide, ?_⟩
  · have hne : a ≠ 0x4000 := by rintro rfl; revert h; decide
    show (writeLE [(0x4000, 1#8)] 0x1000 0x13#32 4).read a = (writeLE [(0x4000, 2#8)] 0x1000 0x13#32 4).read a
    rw [read_writeLE, read_writeLE]
    simp [Memory.read, Ne.symm hne]
  · obtain ⟨t, h, h'⟩ := exists_of_stepsTo (s := secretBench 1#8) (test := fun t => t.pc == 0x1004#32) (by decide)
    exact ⟨t, h, by simpa using h'⟩

/-- Every transfer into data memory: each jump, and each branch with operands that take it. -/
theorem witness_JumpIntoAbsentMemoryFaultsOnFetch :
    State.reset.status = .running ∧ (0x2000#32).toNat % 4 = 0 ∧ 0x2000#32 ≠ State.reset.platform.endPc ∧
    ¬ Accessible State.reset .fetch (0x2000#32).toNat 4 ∧
    TransfersTo State.reset 0x2000#32 (.jal 1#5 0x1000#32) ∧ TransfersTo (State.reset.setReg 5#5 0x2001#32) 0x2000#32 (.jalr 1#5 5#5 0#32) ∧
    TransfersTo State.reset 0x2000#32 (.beq 5#5 5#5 0x1000#32) ∧
    TransfersTo (State.reset.setReg 5#5 1#32) 0x2000#32 (.bne 5#5 0#5 0x1000#32) ∧
    TransfersTo (State.reset.setReg 5#5 (-1#32)) 0x2000#32 (.blt 5#5 0#5 0x1000#32) ∧
    TransfersTo State.reset 0x2000#32 (.bge 5#5 5#5 0x1000#32) ∧
    TransfersTo (State.reset.setReg 5#5 1#32) 0x2000#32 (.bltu 0#5 5#5 0x1000#32) ∧
    TransfersTo State.reset 0x2000#32 (.bgeu 5#5 5#5 0x1000#32) := by
  refine ⟨by decide, by decide, by decide, not_accessible_of_not_allowed (by decide), ?_, ?_, ?_, ?_, ?_, ?_, ?_, ?_⟩ <;>
    (simp only [TransfersTo]; decide)

theorem witness_AssembledInstructionsAreWellFormed :
    assemble 0x1000#32 ["sw t0, -4(t1)".toList] = .ok [.sw 5#5 6#5 (-4#32)] := by decide

/-- A label behind a `jal` and a branch. -/
theorem witness_LabelsAreByteOffsets :
    parseNumber "LABEL".toList = none ∧ List.lookup "LABEL".toList [("LABEL".toList, 0x1000#32)] = some 0x1000#32 ∧
    parseTarget checkJump [("LABEL".toList, 0x1000#32)] 0x1008#32 "LABEL".toList = .ok (-8#32) ∧
    parseTarget checkBranch [("LABEL".toList, 0x1000#32)] 0x1008#32 "LABEL".toList = .ok (-8#32) := by decide

theorem witness_RegisterNamesOfTheTable : parseRegister "t6".toList = .ok 31#5 ∧ parseRegister "x31".toList = .ok 31#5 := by decide

end Sys2Proof.Tests
end

section
/-! The step as a whole (`00_scope.md`): what a fetch answers in each case of `60_exceptions.md` R204, what a step is in each of its
cases (R16), what an instruction and a step leave unchanged, and how an invariant of the step passes to a run. -/

namespace Sys2Proof.Machine

/-! ## Fetching and decoding: one equation for each case -/

/-- `readLE` at word width reads the word the statements call `wordAt` (R43). -/
theorem readLE_word_eq_wordAt (m : Memory) (a : Nat) : readLE m a .word = wordAt m a := rfl

theorem fetchInstr_of_misaligned {s : State} (h : s.pc.toNat % 4 ≠ 0) :
    fetchInstr s = .error ⟨.instructionAddressMisaligned, s.pc⟩ := by
  rcases fetchInstr_cases s with ⟨-, e⟩ | ⟨ha, -⟩ | ⟨ha, -⟩ | ⟨-, ha, -⟩
  · exact e
  all_goals exact absurd ha h

theorem fetchInstr_of_not_executable {s : State} (ha : s.pc.toNat % 4 = 0) (hx : ¬ Accessible s .fetch s.pc.toNat 4) :
    fetchInstr s = .error ⟨.instructionAccessFault, s.pc⟩ := by
  rcases fetchInstr_cases s with ⟨hm, -⟩ | ⟨-, -, e⟩ | ⟨-, hx', -⟩ | ⟨-, -, hx', -⟩
  · exact absurd ha hm
  · exact e
  all_goals exact absurd hx' hx

/-- `fetchInstr` answers an instruction exactly when the aligned, executable word at the pc decodes to it (R43, R86). -/
theorem fetchInstr_eq_ok_iff {s : State} {i : Instr} :
    fetchInstr s = .ok i ↔
      s.pc.toNat % 4 = 0 ∧ Accessible s .fetch s.pc.toNat 4 ∧ decode (wordAt s.mem s.pc.toNat) = .ok i := by
  rw [← readLE_word_eq_wordAt]
  rcases fetchInstr_cases s with ⟨hm, e⟩ | ⟨-, hx, e⟩ | ⟨-, -, hd, e⟩ | ⟨j, ha, hx, hd, e⟩
  · simp [e, hm]
  · simp [e, hx]
  · simp [e, hd]
  · simp [e, ha, hx, hd]

theorem fetchInstr_of_undecodable {s : State} (ha : s.pc.toNat % 4 = 0) (hx : Accessible s .fetch s.pc.toNat 4)
    (hd : ∀ i, decode (wordAt s.mem s.pc.toNat) ≠ .ok i) :
    fetchInstr s = .error ⟨.illegalInstruction, wordAt s.mem s.pc.toNat⟩ := by
  rcases fetchInstr_cases s with ⟨hm, -⟩ | ⟨-, hx', -⟩ | ⟨-, -, -, e⟩ | ⟨i, -, -, hd', -⟩
  · exact absurd ha hm
  · exact absurd hx hx'
  · exact e
  · exact absurd hd' (hd i)

/-! ## The step: one equation for each case of R16 -/

theorem step_of_halted {s : State} (h : s.status = .halted) : step s = .fault .stepAfterHalt := by
  simp [step, h]

theorem step_of_faulted {s : State} {e : Exception} {p info : Word} (h : s.status = .faulted e p info) :
    step s = .fault .stepAfterException := by
  simp [step, h]

theorem step_of_atEnd {s : State} (hr : s.status = .running) (hp : s.pc = s.platform.endPc) : step s = .next s.halt := by
  simp [step, State.atEnd, hr, hp]

theorem step_of_fetchInstr_error {s : State} {r : Raised} (hr : s.status = .running) (hp : s.pc ≠ s.platform.endPc)
    (hf : fetchInstr s = .error r) : step s = .next (s.raise r) := by
  simp [step, State.atEnd, takeException, hr, hp, hf]

theorem step_of_fetchInstr_ok {s : State} {i : Instr} (hr : s.status = .running) (hp : s.pc ≠ s.platform.endPc)
    (hf : fetchInstr s = .ok i) : step s = exec i s := by
  simp [step, State.atEnd, hr, hp, hf]

/-- A step of a machine that can fetch runs the instruction at its pc (R16). -/
theorem step_of_canFetch {s : State} {i : Instr} (h : CanFetch s) (hd : decode (wordAt s.mem s.pc.toNat) = .ok i) :
    step s = exec i s :=
  step_of_fetchInstr_ok h.running h.notAtEnd (fetchInstr_eq_ok_iff.2 ⟨h.aligned, h.executable, hd⟩)

/-- The next state of an instruction is one of the endings. -/
theorem ending_of_exec {i : Instr} {s t : State} (h : exec i s = .next t) : Ending s t := by
  obtain ⟨u, hu, hend⟩ := exec_cases i s
  cases hu.symm.trans h
  exact hend

/-- A running machine has a next state (R16). -/
theorem exists_step_of_running {s : State} (hr : s.status = .running) : ∃ t, step s = .next t := by
  by_cases hp : s.pc = s.platform.endPc
  · exact ⟨_, step_of_atEnd hr hp⟩
  · cases hf : fetchInstr s with
    | error r => exact ⟨_, step_of_fetchInstr_error hr hp hf⟩
    | ok i =>
      obtain ⟨t, ht, -⟩ := exec_cases i s
      exact ⟨t, (step_of_fetchInstr_ok hr hp hf).trans ht⟩

/-- Where a step that has a next state comes from: the halt at `END_PC`, an exception of fetching or decoding, or the instruction at
the pc. -/
theorem step_next_cases {s t : State} (h : step s = .next t) :
    t = s.halt ∨ (∃ r, t = s.raise r) ∨
      (CanFetch s ∧ ∃ i, decode (wordAt s.mem s.pc.toNat) = .ok i ∧ exec i s = .next t) := by
  rcases step_cases s with ⟨-, e⟩ | ⟨_, _, _, -, e⟩ | ⟨-, -, e⟩ | ⟨-, -, r, -, e⟩ | ⟨hr, hp, i, hf, e⟩
  · cases e.symm.trans h
  · cases e.symm.trans h
  · cases e.symm.trans h
    exact .inl rfl
  · cases e.symm.trans h
    exact .inr (.inl ⟨r, rfl⟩)
  · obtain ⟨ha, hx, hd⟩ := fetchInstr_eq_ok_iff.1 hf
    exact .inr (.inr ⟨⟨hr, hp, ha, hx⟩, i, hd, e.symm.trans h⟩)

/-! ## What an ending leaves unchanged -/

/-- An instruction keeps the status, or it raises and does nothing else (R14). -/
theorem Ending.status_eq_or_raise {s t : State} (h : Ending s t) : t.status = s.status ∨ ∃ r, t = s.raise r := by
  cases h with
  | result | fallThrough | transfer | store => exact .inl (by simp)
  | targetMisaligned | loadMisaligned | loadFault | storeMisaligned | storeFault => exact .inr ⟨_, rfl⟩

/-- No instruction changes the parameters (R41). -/
theorem Ending.platform_eq {s t : State} (h : Ending s t) : t.platform = s.platform := by
  cases h <;> simp

theorem step_platform {s t : State} (h : step s = .next t) : t.platform = s.platform := by
  rcases step_next_cases h with rfl | ⟨r, rfl⟩ | ⟨-, i, -, he⟩
  · simp
  · simp
  · exact (ending_of_exec he).platform_eq

/-- A step into `Faulted` raised: it did nothing else (R203). -/
theorem eq_raise_of_step_faulted {s t : State} {e : Exception} {p info : Word} (h : step s = .next t)
    (ht : t.status = .faulted e p info) : ∃ r, t = s.raise r := by
  rcases step_next_cases h with rfl | hraise | ⟨hc, i, -, he⟩
  · simp at ht
  · exact hraise
  · rcases (ending_of_exec he).status_eq_or_raise with hs | hraise
    · simp [hs, hc.running] at ht
    · exact hraise

/-! ## The registers an instruction leaves unchanged (R12) -/

theorem finishWith_reg_other {s t : State} {rd r : Reg} {v : Word} (hr : r ≠ rd) (h : finishWith s rd v = .next t) :
    t.reg r = s.reg r := by
  cases h
  simp [State.reg_setReg_other s hr]

/-- A control transfer shows a register as its link state `s'` does, or, when it raises, as it was. -/
theorem transferTo_reg {s s' t : State} {r : Reg} {target : Word} (hs : s'.reg r = s.reg r)
    (h : transferTo s s' target = .next t) : t.reg r = s.reg r := by
  rcases transferTo_cases s s' target with ⟨-, e⟩ | ⟨-, e⟩ <;> cases e.symm.trans h
  · simp
  · simpa using hs

theorem branchIf_reg {s t : State} {c : Bool} {imm : Word} (r : Reg) (h : branchIf s c imm = .next t) : t.reg r = s.reg r := by
  rcases branchIf_cases s c imm with ⟨-, e⟩ | ⟨-, -, e⟩ | ⟨-, -, e⟩ <;> cases e.symm.trans h <;> simp

theorem loadInto_reg_other {s t : State} {rd r : Reg} {w : Width} {ext : Word → Word} {addr : Word} (hr : r ≠ rd)
    (h : loadInto s rd w ext addr = .next t) : t.reg r = s.reg r := by
  rcases loadInto_cases s rd w ext addr with ⟨-, e⟩ | ⟨-, -, e⟩ | ⟨-, -, e⟩ <;> cases e.symm.trans h
  · simp
  · simp [State.reg_setReg_other s hr]
  · simp

theorem storeAt_reg {s t : State} {w : Width} {addr v : Word} (r : Reg) (h : storeAt s w addr v = .next t) :
    t.reg r = s.reg r := by
  rcases storeAt_cases s w addr v with ⟨-, e⟩ | ⟨-, -, e⟩ | ⟨-, -, e⟩ <;> cases e.symm.trans h
  · simp
  · exact State.reg_congr rfl r
  · simp

/-- An instruction changes no register but its destination, by the shared operation it ends with. -/
theorem exec_reg_of_ne_destination {i : Instr} {s t : State} {r : Reg} (hd : destination i ≠ some r)
    (h : exec i s = .next t) : t.reg r = s.reg r := by
  have hr : ∀ rd, destination i = some rd → r ≠ rd := by
    rintro rd hrd rfl
    exact hd hrd
  cases i with
  | add rd | sub rd | slt rd | sltu rd | and rd | or rd | xor rd | sll rd | srl rd | sra rd
  | addi rd | slti rd | sltiu rd | andi rd | ori rd | xori rd | slli rd | srli rd | srai rd | lui rd | auipc rd =>
    exact finishWith_reg_other (hr rd rfl) h
  | jalr rd | jal rd => exact transferTo_reg (State.reg_setReg_other s (hr rd rfl) _) h
  | lw rd | lh rd | lhu rd | lb rd | lbu rd => exact loadInto_reg_other (hr rd rfl) h
  | sw | sh | sb => exact storeAt_reg r h
  | beq | bne | blt | bge | bltu | bgeu => exact branchIf_reg r h

/-! ## Runs -/

/-- What holds at the start of a run and is kept by every step holds of every state the run reaches. -/
theorem Reaches.induct {P : State → Prop} {s t : State} (h : Reaches s t) (start : P s)
    (further : ∀ t u, P t → step t = .next u → P u) : P t := by
  induction h with
  | start => exact start
  | further t u _ hstep ih => exact further t u ih hstep

/-! ## The mnemonics of the assembler (`30_encoding.md` R92) -/

/-- `formOf` finds a text exactly when it is one of the listed names. -/
theorem formOf_isSome_iff (forms : List (String × OperandForm)) (cs : List Char) :
    (formOf forms cs).isSome = true ↔ ∃ n ∈ forms.map Prod.fst, n.toList = cs := by
  induction forms with
  | nil => simp [formOf]
  | cons p rest ih =>
    obtain ⟨n, f⟩ := p
    by_cases hn : n.toList = cs
    · simp [formOf, hn]
    · simp [formOf, hn, ih]

/-- The two lists of names, written in different orders, are one set. -/
theorem mem_mnemonicForms_iff (n : String) :
    n ∈ mnemonicForms.map Prod.fst ↔ n ∈ opcodeTable.map OpcodeRow.mnemonic := by
  have hperm : (mnemonicForms.map Prod.fst).Perm (opcodeTable.map OpcodeRow.mnemonic) := by decide
  exact hperm.mem_iff

/-- Every instruction's name is listed. -/
theorem mnemonic_mem_mnemonicForms (i : Instr) : i.mnemonic ∈ mnemonicForms.map Prod.fst := by
  cases i <;> simp [Instr.mnemonic, mnemonicForms]

/-! ## The statements -/

/-- Settles O26: each clause is the step's exception case at the answer `fetchInstr` gives there. -/
theorem fetchChecksInOrder : Obligations.FetchChecksInOrder := by
  intro s hr hp
  refine ⟨fun hm => ?_, fun ha hx => ?_, fun ha hx hd => ?_⟩
  · exact step_of_fetchInstr_error hr hp (fetchInstr_of_misaligned hm)
  · exact step_of_fetchInstr_error hr hp (fetchInstr_of_not_executable ha hx)
  · exact step_of_fetchInstr_error hr hp (fetchInstr_of_undecodable ha hx hd)

/-- Settles O29, status by status: `exists_step_of_running` has the content. -/
theorem onlyARunningMachineSteps : Obligations.OnlyARunningMachineSteps := by
  intro s
  cases hs : s.status with
  | running =>
    obtain ⟨t, ht⟩ := exists_step_of_running hs
    simp [ht]
  | halted => simp [step_of_halted hs]
  | faulted e p info => simp [step_of_faulted hs]

/-- Settles O30: the step raised, and what it recorded is read off the status. -/
theorem exceptionsArePrecise : Obligations.ExceptionsArePrecise := by
  intro s t e p info h ht
  have hfatal : step t = .fault .stepAfterException := step_of_faulted ht
  obtain ⟨r, rfl⟩ := eq_raise_of_step_faulted h ht
  cases ht
  exact ⟨rfl, hfatal⟩

/-- Settles O32: halting and the exceptions of a fetch change no register, an instruction only its destination. -/
theorem onlyTheDestinationRegisterChanges : Obligations.OnlyTheDestinationRegisterChanges := by
  intro s t r h hr
  rcases step_next_cases h with rfl | ⟨e, rfl⟩ | ⟨hc, i, hd, he⟩
  · exact absurd (State.reg_halt s r) hr
  · exact absurd (State.reg_raise s e r) hr
  · have hdest : destination i = some r := by
      by_contra hne
      exact hr (exec_reg_of_ne_destination hne he)
    exact ⟨hc, i, hd, hdest⟩

/-- Settles O35, by induction on the run. -/
theorem parametersNeverChange : Obligations.ParametersNeverChange := fun s _ hreach =>
  hreach.induct (P := fun t => t.platform = s.platform) rfl fun _ _ ih h => (step_platform h).trans ih

/-- Settles O49: the assembler finds exactly the listed names, and these are the names of the rows. -/
theorem onlyTheTablesMnemonics : Obligations.OnlyTheTablesMnemonics := by
  refine ⟨fun m => ?_, fun i => ?_⟩
  · rw [formOf_isSome_iff]
    simp only [mem_mnemonicForms_iff]
    simp only [List.mem_map, exists_exists_and_eq_and]
  · exact (formOf_isSome_iff _ _).2 ⟨_, mnemonic_mem_mnemonicForms i, rfl⟩

/-- Settles O25. -/
theorem stepRunsTheDecodedInstruction : Obligations.StepRunsTheDecodedInstruction := fun _ _ hc hd =>
  step_of_canFetch hc hd

/-- Settles O28. -/
theorem machineHaltsAtEndPc : Obligations.MachineHaltsAtEndPc := fun _ hr hp =>
  ⟨step_of_atEnd hr hp, step_of_halted rfl⟩

end Sys2Proof.Machine
end

section
/-! The state over a run (`10_state.md`): the invariant of the machine, step by step and from its start states; what `rd = x0` loses
(R21); the canonical form of memory; the start state of `70_reset_and_hazards.md` R240; and the register names (R22). -/

namespace Sys2Proof.Machine

/-! ## Canonical memories -/

/-- A byte that is not what an unlisted address reads as is listed. -/
theorem Memory.mem_of_read {m : Memory} {a : Nat} (h : m.read a ≠ Config.unlistedByte) : (a, m.read a) ∈ m := by
  induction m with
  | nil => exact absurd rfl h
  | cons c m ih =>
    obtain ⟨k, b⟩ := c
    by_cases hk : k = a
    · simp [Memory.read, hk]
    · simp only [Memory.read, if_neg hk] at h ⊢
      exact List.mem_cons_of_mem _ (ih h)

/-- Each entry of a rising list gives its address its byte. -/
theorem Memory.read_of_mem {m : Memory} (hm : m.Pairwise fun c d => c.1 < d.1) {c : Host.Cell} (hc : c ∈ m) :
    m.read c.1 = c.2 := by
  induction hm with
  | nil => cases hc
  | @cons d m hd _ ih =>
    rcases List.mem_cons.1 hc with rfl | hc
    · simp [Memory.read]
    · simp [Memory.read, (hd c hc).ne, ih hc]

/-- The entries of a canonical memory are read off its bytes. -/
theorem Memory.mem_iff_read {m : Memory} (hm : m.wf) (c : Host.Cell) :
    c ∈ m ↔ m.read c.1 = c.2 ∧ c.2 ≠ Config.unlistedByte := by
  obtain ⟨hrising, hlisted⟩ := hm
  refine ⟨fun hc => ⟨Memory.read_of_mem hrising hc, (hlisted c hc).1⟩, fun ⟨hread, hne⟩ => ?_⟩
  have hmem := Memory.mem_of_read (hread ▸ hne)
  rwa [hread] at hmem

/-! ## What an ending and a step do to the memory and the pc -/

/-- An instruction leaves the memory alone or writes bytes that are all writable (`20_memory.md` R42). -/
theorem Ending.mem_cases {s t : State} (h : Ending s t) :
    t.mem = s.mem ∨ ∃ a n v, 0 < n ∧ Accessible s .store a n ∧ t.mem = writeLE s.mem a v n := by
  cases h with
  | store w addr v _ writable => exact .inr ⟨_, _, v, w.bytes_pos, writable, rfl⟩
  | result | fallThrough | transfer | targetMisaligned | loadMisaligned | loadFault | storeMisaligned | storeFault =>
    exact .inl (by simp)

/-- A step leaves the memory alone or writes bytes that are all writable. -/
theorem step_mem_cases {s t : State} (h : step s = .next t) :
    t.mem = s.mem ∨ ∃ a n v, 0 < n ∧ Accessible s .store a n ∧ t.mem = writeLE s.mem a v n := by
  rcases step_next_cases h with rfl | ⟨r, rfl⟩ | ⟨-, i, -, he⟩
  · exact .inl rfl
  · exact .inl rfl
  · exact (ending_of_exec he).mem_cases

/-- A step keeps the memory's list canonical. -/
theorem step_mem_wf {s t : State} (hm : s.mem.wf) (h : step s = .next t) : t.mem.wf := by
  rcases step_mem_cases h with e | ⟨a, n, v, hn, hacc, e⟩ <;> rw [e]
  · exact hm
  · exact wf_writeLE hm (store_in_space hacc hn) v

/-- A step lists only addresses that `MEM_MAP` gives a permission, if it started so (`10_state.md` R34). -/
theorem step_mem_mapped {s t : State} (hm : ∀ c ∈ s.mem, permAt s.platform c.1 ≠ .none) (h : step s = .next t) :
    ∀ c ∈ t.mem, permAt t.platform c.1 ≠ .none := by
  intro c hc
  rw [step_platform h]
  rcases step_mem_cases h with e | ⟨a, n, v, -, hacc, e⟩ <;> rw [e] at hc
  · exact hm c hc
  · rcases mem_writeLE hc with ⟨hlow, hhigh⟩ | hold
    · have hstore := hacc (c.1 - a) (by omega)
      rw [Nat.add_sub_cancel' hlow] at hstore
      exact mapped_of_permits hstore
    · exact hm c hold

/-- `pc + 4` is as aligned as the pc, also where it wraps around (R24, R25). -/
theorem add_four_aligned {pc : Word} (h : pc.toNat % 4 = 0) : (pc + 4#32).toNat % 4 = 0 := by
  rw [BitVec.toNat_add, BitVec.toNat_ofNat]
  omega

/-- From an aligned pc an instruction leaves an aligned pc: the next instruction's, a checked target, or its own (R25, R44). -/
theorem Ending.pc_aligned {s t : State} (ha : s.pc.toNat % 4 = 0) (h : Ending s t) : t.pc.toNat % 4 = 0 := by
  cases h with
  | result | fallThrough | store => simpa using add_four_aligned ha
  | transfer rd v target aligned => exact aligned
  | targetMisaligned | loadMisaligned | loadFault | storeMisaligned | storeFault => exact ha

theorem step_pc_aligned {s t : State} (ha : s.pc.toNat % 4 = 0) (h : step s = .next t) : t.pc.toNat % 4 = 0 := by
  rcases step_next_cases h with rfl | ⟨r, rfl⟩ | ⟨-, i, -, he⟩
  · exact ha
  · exact ha
  · exact (ending_of_exec he).pc_aligned ha

/-! ## The truthful status (`60_exceptions.md` R200, R201) -/

/-- An address that is misaligned at some width is no multiple of 4. -/
theorem misaligned_four_of_misaligned {w : Width} {a : Nat} (h : a % w.bytes ≠ 0) : a % 4 ≠ 0 := by
  cases w <;> simp only [Width.bytes] at h <;> omega

/-- An exception of fetching or decoding has the `info` R200 gives it. -/
theorem infoRecords_of_fetchInstr_error {s : State} {r : Raised} (h : fetchInstr s = .error r) :
    InfoRecords s r.info r.exception := by
  rcases fetchInstr_cases s with ⟨hm, e⟩ | ⟨ha, hx, e⟩ | ⟨-, hx, hd, e⟩ | ⟨_, -, -, -, e⟩ <;> cases e.symm.trans h
  · exact hm
  · exact ⟨rfl, ha, hx⟩
  · exact ⟨hx, rfl, hd⟩

/-- An instruction keeps the status, or it raises with the `info` R200 gives its exception. -/
theorem Ending.status_eq_or_infoRecords {s t : State} (h : Ending s t) :
    t.status = s.status ∨ ∃ r, t = s.raise r ∧ InfoRecords s r.info r.exception := by
  cases h with
  | result | fallThrough | transfer | store => exact .inl (by simp)
  | targetMisaligned target hm => exact .inr ⟨_, rfl, hm⟩
  | loadMisaligned w addr hm | storeMisaligned w addr hm => exact .inr ⟨_, rfl, misaligned_four_of_misaligned hm⟩
  | loadFault w addr ha hx | storeFault w addr ha hx => exact .inr ⟨_, rfl, w, ha, hx⟩

/-- Raising changes nothing that `InfoRecords` speaks of. -/
theorem infoRecords_raise {s : State} {r : Raised} {info : Word} {e : Exception} (h : InfoRecords s info e) :
    InfoRecords (s.raise r) info e := by
  cases e <;> exact h

theorem statusTruthful_of_running {s : State} (h : s.status = .running) : StatusTruthful s := by
  simp [StatusTruthful, h]

theorem statusTruthful_halt {s : State} (h : s.pc = s.platform.endPc) : StatusTruthful s.halt := h

theorem statusTruthful_raise {s : State} {r : Raised} (hp : s.pc ≠ s.platform.endPc)
    (hi : InfoRecords s r.info r.exception) : StatusTruthful (s.raise r) :=
  ⟨rfl, hp, infoRecords_raise hi⟩

/-- Whatever the state before it, a step leaves a truthful status: a machine that steps was running. -/
theorem step_statusTruthful {s t : State} (h : step s = .next t) : StatusTruthful t := by
  rcases step_cases s with ⟨-, e⟩ | ⟨_, _, _, -, e⟩ | ⟨-, hp, e⟩ | ⟨-, hp, r, hf, e⟩ | ⟨hr, hp, i, -, e⟩
  · cases e.symm.trans h
  · cases e.symm.trans h
  · cases e.symm.trans h
    exact statusTruthful_halt hp
  · cases e.symm.trans h
    exact statusTruthful_raise hp (infoRecords_of_fetchInstr_error hf)
  · rcases (ending_of_exec (e.symm.trans h)).status_eq_or_infoRecords with hs | ⟨r, rfl, hi⟩
    · exact statusTruthful_of_running (hs.trans hr)
    · exact statusTruthful_raise hp hi

/-! ## The invariant of the machine -/

/-- Settles O37, clause by clause. -/
theorem stepKeepsTheMachineLegal : Obligations.StepKeepsTheMachineLegal := fun _ _ hs h =>
  { canonical := step_mem_wf hs.canonical h
    mapped := step_mem_mapped hs.mapped h
    pcAligned := step_pc_aligned hs.pcAligned h
    endAligned := by rw [step_platform h]; exact hs.endAligned
    truthful := step_statusTruthful h }

/-- Settles O36, by induction on the run. -/
theorem pcStaysAligned : Obligations.PcStaysAligned := fun _ _ ha hreach =>
  hreach.induct (P := fun t => t.pc.toNat % 4 = 0) ha fun _ _ => step_pc_aligned

/-- Settles O38. -/
theorem resetIsLegal : Obligations.ResetIsLegal where
  canonical := Memory.wf_nil
  mapped := fun c hc => absurd hc (List.not_mem_nil (a := c))
  pcAligned := by decide
  endAligned := by decide
  truthful := statusTruthful_of_running rfl

/-- Settles O43: canonical memories that read the same have the same entries, and both lists rise. -/
theorem canonicalMemoriesAreTheirBytes : Obligations.CanonicalMemoriesAreTheirBytes := by
  intro m m' hm hm' hread
  have hentries : ∀ c, c ∈ m ↔ c ∈ m' := fun c => by
    rw [Memory.mem_iff_read hm, Memory.mem_iff_read hm', hread]
  have : Std.Asymm fun c d : Host.Cell => c.1 < d.1 := ⟨fun _ _ => Nat.lt_asymm⟩
  exact hm.1.eq_of_mem_iff hm'.1 hentries

/-! ## The start state (`70_reset_and_hazards.md` R240) -/

/-- A mapped address lies in the address space (`20_memory.md` R40). -/
theorem lt_of_mapped {p : Platform} {a : Nat} (h : permAt p a ≠ .none) : a < addressSpace := by
  by_contra hlt
  exact h (if_neg hlt)

theorem initialMemory_wf (p : Platform) (cells : List Host.Cell) : (initialMemory p cells).wf := by
  induction cells with
  | nil => exact Memory.wf_nil
  | cons c cells ih =>
    unfold initialMemory
    split
    · exact ih
    · next hmapped => exact Memory.wf_write ih (lt_of_mapped hmapped) c.2

/-- Nothing is put where `MEM_MAP` has no memory (R34). -/
theorem initialMemory_mapped (p : Platform) (cells : List Host.Cell) :
    ∀ c ∈ initialMemory p cells, permAt p c.1 ≠ .none := by
  induction cells with
  | nil => simp [initialMemory]
  | cons d cells ih =>
    unfold initialMemory
    split
    · exact ih
    · next hmapped =>
      intro c hc
      rcases Memory.mem_write hc with rfl | hc
      · exact hmapped
      · exact ih c hc

/-- A mapped address holds the byte of the first pair that names it. -/
theorem read_initialMemory {p : Platform} {a : Nat} (ha : permAt p a ≠ .none) (cells : List Host.Cell) :
    (initialMemory p cells).read a = (cells.lookup a).getD Config.unlistedByte := by
  induction cells with
  | nil => rfl
  | cons c cells ih =>
    obtain ⟨k, b⟩ := c
    by_cases hk : a = k
    · subst hk
      simp [initialMemory, ha, Memory.read_write_self]
    · have hlookup : List.lookup a ((k, b) :: cells) = cells.lookup a := by rw [List.lookup_cons, beq_false_of_ne hk]
      rw [hlookup, ← ih, initialMemory]
      split
      · rfl
      · exact Memory.read_write_other _ b hk

/-- Any register but `x0` is its place in the list of `x1` to `x31`. -/
theorem State.getElem?_regs (s : State) {r : Reg} (h : r ≠ 0#5) : s.regs.toList[r.toNat - 1]? = some (s.reg r) := by
  rw [State.reg, if_neg h]
  simp [regIndex]

theorem legalParams_iff (p : LaunchParams) :
    legalParams p = true ↔ p.resetPc.toNat % 4 = 0 ∧ p.endPc.toNat % 4 = 0 := by
  simp [legalParams]

/-- The state R240 describes for the parameters. -/
def startState (p : LaunchParams) : State where
  regs := p.initRegs
  pc := p.resetPc
  mem := initialMemory ⟨p.memMap, p.endPc⟩ p.initMem
  status := .running
  platform := ⟨p.memMap, p.endPc⟩

theorem launch_eq_some_iff {p : LaunchParams} {s : State} :
    launch p = some s ↔ (p.resetPc.toNat % 4 = 0 ∧ p.endPc.toNat % 4 = 0) ∧ startState p = s := by
  rw [← legalParams_iff]
  simp [launch, startState]

theorem launch_eq_none_iff {p : LaunchParams} :
    launch p = none ↔ ¬ (p.resetPc.toNat % 4 = 0 ∧ p.endPc.toNat % 4 = 0) := by
  rw [← legalParams_iff]
  simp [launch]

/-- A launched state is legal: its parameters meet R240 and its memory is `initialMemory`. -/
theorem legalState_of_launch {p : LaunchParams} {s : State} (h : launch p = some s) : LegalState s := by
  obtain ⟨⟨hreset, hend⟩, rfl⟩ := launch_eq_some_iff.1 h
  exact {
    canonical := initialMemory_wf _ _
    mapped := initialMemory_mapped _ _
    pcAligned := hreset
    endAligned := hend
    truthful := statusTruthful_of_running rfl }

/-- Settles O39: the registers and the memory of the start state by their lemmas, its other fields as they are given. -/
theorem launchBuildsTheStartState : Obligations.LaunchBuildsTheStartState := by
  refine fun p => ⟨fun hlegal => ?_, launch_eq_none_iff.2⟩
  refine ⟨startState p, launch_eq_some_iff.2 ⟨hlegal, rfl⟩, rfl, State.reg_zero _, ?_, ?_, ?_, rfl, rfl, rfl⟩
  · exact fun r hr => (startState p).getElem?_regs hr
  · exact fun a ha => read_initialMemory ha p.initMem
  · exact initialMemory_mapped _ p.initMem

/-- Settles O40, by induction on the run. -/
theorem launchedRunsStayLegal : Obligations.LaunchedRunsStayLegal := fun _ _ _ hlaunch hreach =>
  hreach.induct (legalState_of_launch hlaunch) stepKeepsTheMachineLegal

/-! ## An instruction with `rd = x0` (R21) -/

/-- A state that kept its registers is the state with the registers of before. -/
theorem State.with_regs_of_eq {s t : State} (h : t.regs = s.regs) : { t with regs := s.regs } = t := by
  rw [← h]

theorem finishWith_zero {s t : State} {rd : Reg} {v : Word} (h : finishWith s rd v = .next t) :
    finishWith s 0#5 v = .next { t with regs := s.regs } := by
  cases h
  simp [finishWith, State.advance, State.setPc]

/-- A control transfer without a link goes to the same target or raises the same exception. -/
theorem transferTo_zero {s t : State} {rd : Reg} {v target : Word} (h : transferTo s (s.setReg rd v) target = .next t) :
    transferTo s (s.setReg 0#5 v) target = .next { t with regs := s.regs } := by
  unfold transferTo at h ⊢
  split at h
  · next hm =>
    cases h
    exact if_pos hm
  · next hm =>
    cases h
    simp [State.setPc, if_neg hm]

/-- A load into `x0` performs its access and its exceptions. -/
theorem loadInto_zero {s t : State} {rd : Reg} {w : Width} {ext : Word → Word} {addr : Word}
    (h : loadInto s rd w ext addr = .next t) : loadInto s 0#5 w ext addr = .next { t with regs := s.regs } := by
  unfold loadInto at h ⊢
  split at h
  · cases h
    rfl
  · exact finishWith_zero h

/-- An instruction that changes no register gives the state with the registers of before. -/
theorem exec_with_regs {i : Instr} {s t : State} (h : exec i s = .next t) (hregs : ∀ r, t.reg r = s.reg r) :
    exec i s = .next { t with regs := s.regs } := by
  rw [h, State.with_regs_of_eq (State.regs_ext hregs)]

/-- The instruction with `rd = x0`, by the shared operation it ends with; stores and branches have no destination to change. -/
theorem exec_withDestination_zero {i : Instr} {s t : State} (h : exec i s = .next t) :
    exec (withDestination 0#5 i) s = .next { t with regs := s.regs } := by
  cases i with
  | add | sub | slt | sltu | and | or | xor | sll | srl | sra
  | addi | slti | sltiu | andi | ori | xori | slli | srli | srai | lui | auipc => exact finishWith_zero h
  | jalr | jal => exact transferTo_zero h
  | lw | lh | lhu | lb | lbu => exact loadInto_zero h
  | sw | sh | sb => exact exec_with_regs h fun r => storeAt_reg r h
  | beq | bne | blt | bge | bltu | bgeu => exact exec_with_regs h fun r => branchIf_reg r h

/-- Settles O31. -/
theorem zeroDestinationLosesOnlyTheResult : Obligations.ZeroDestinationLosesOnlyTheResult :=
  ⟨fun s => ⟨State.reg_zero s, State.setReg_zero s⟩, fun _ _ _ => exec_withDestination_zero⟩

/-! ## Register names (R22) -/

/-- A name that is found stands in the list at the place found. -/
theorem getElem?_of_nameIndex {names : List String} {cs : List Char} {n : Nat} (h : nameIndex names cs = some n) :
    ∃ name, names[n]? = some name ∧ name.toList = cs := by
  induction names generalizing n with
  | nil => cases h
  | cons name names ih =>
    unfold nameIndex at h
    split at h
    · next hname =>
      cases h
      exact ⟨name, rfl, hname⟩
    · obtain ⟨k, hk, rfl⟩ := Option.map_eq_some_iff.1 h
      exact ih hk

/-- The table's rows are in the order of the register numbers. -/
theorem registerTable_number {n : Nat} {row : Reg × String × String} (h : registerTable[n]? = some row) :
    row.1 = BitVec.ofNat 5 n := by
  have hrows : ∀ k : Fin registerTable.length, registerTable[k].1 = BitVec.ofNat 5 k := by decide
  obtain ⟨hn, rfl⟩ := List.getElem?_eq_some_iff.1 h
  exact hrows ⟨n, hn⟩

/-- The place of a text in a column of the table is the number of its row. -/
theorem row_of_nameIndex {column : Reg × String × String → String} {cs : List Char} {n : Nat}
    (h : nameIndex (registerTable.map column) cs = some n) :
    ∃ row ∈ registerTable, row.1 = BitVec.ofNat 5 n ∧ (column row).toList = cs := by
  obtain ⟨name, hname, hcs⟩ := getElem?_of_nameIndex h
  rw [List.getElem?_map] at hname
  obtain ⟨row, hrow, rfl⟩ := Option.map_eq_some_iff.1 hname
  exact ⟨row, List.mem_of_getElem? hrow, registerTable_number hrow, hcs⟩

theorem registerNumbers_eq_column : registerNumbers = registerTable.map fun row => row.2.1 := rfl

theorem registerNames_eq_column : registerNames = registerTable.map fun row => row.2.2 := rfl

/-- A text that is a register is one of the two spellings in that register's row. -/
theorem row_of_parseRegister {cs : List Char} {r : Reg} (h : parseRegister cs = .ok r) :
    ∃ row ∈ registerTable, row.1 = r ∧ (row.2.1.toList = cs ∨ row.2.2.toList = cs) := by
  unfold parseRegister at h
  rw [registerNames_eq_column, registerNumbers_eq_column] at h
  split at h
  · next n hname =>
    cases h
    obtain ⟨row, hrow, hnumber, hcs⟩ := row_of_nameIndex hname
    exact ⟨row, hrow, hnumber, .inr hcs⟩
  · split at h
    · next n hname =>
      cases h
      obtain ⟨row, hrow, hnumber, hcs⟩ := row_of_nameIndex hname
      exact ⟨row, hrow, hnumber, .inl hcs⟩
    · cases h

/-- Settles O51: the rows one by one, and for any other text where it was found. -/
theorem registerNamesOfTheTable : Obligations.RegisterNamesOfTheTable :=
  ⟨by decide, fun _ _ => row_of_parseRegister⟩

end Sys2Proof.Machine
end

section
/-! Memory (`20_memory.md`): what a step changes and which bytes it can see, the program image in the start state, accesses of
different widths to the same bytes, and control transfers into memory that may not be fetched. -/

namespace Sys2Proof.Machine

/-! ## States that differ only in bytes that may not be read (R41) -/

/-- The registers are the same data and not only read the same, so the two states differ in their memories alone. -/
theorem SameVisible.exists_eq_with_mem {s s' : State} (h : SameVisible s s') : ∃ m, s' = { s with mem := m } := by
  have hregs : s.regs = s'.regs := State.regs_ext h.registers
  obtain ⟨_, hpc, hstatus, hplatform, _⟩ := h
  refine ⟨s'.mem, ?_⟩
  cases s'
  simp_all

theorem SameVisible.setReg {s s' : State} (h : SameVisible s s') (r : Reg) (v : Word) :
    SameVisible (s.setReg r v) (s'.setReg r v) where
  registers q := by simp only [State.reg_setReg, h.registers]
  pc := by simpa using h.pc
  status := by simpa using h.status
  platform := by simpa using h.platform
  visibleBytes := by simpa using h.visibleBytes

theorem SameVisible.setPc {s s' : State} (h : SameVisible s s') (target : Word) :
    SameVisible (s.setPc target) (s'.setPc target) :=
  { h with pc := rfl }

theorem SameVisible.advance {s s' : State} (h : SameVisible s s') : SameVisible s.advance s'.advance := by
  rw [State.advance, State.advance, ← h.pc]
  exact h.setPc _

theorem SameVisible.raise {s s' : State} (h : SameVisible s s') (r : Raised) : SameVisible (s.raise r) (s'.raise r) :=
  { h with status := by simp [h.pc] }

theorem SameVisible.halt {s s' : State} (h : SameVisible s s') : SameVisible s.halt s'.halt :=
  { h with status := rfl }

/-- The same store leaves the states alike: a byte reads as stored in both, or as it did before. -/
theorem SameVisible.store {s s' : State} (h : SameVisible s s') (a : Nat) (v : Word) (n : Nat) :
    SameVisible { s with mem := writeLE s.mem a v n, pc := s.pc + 4#32 }
      { s' with mem := writeLE s'.mem a v n, pc := s'.pc + 4#32 } :=
  { h with
    pc := congrArg (· + 4#32) h.pc
    visibleBytes := fun x hx => by simp only [read_writeLE, h.visibleBytes x hx] }

/-! ## A step sees no other bytes (R41 to R43) -/

/-- A load sees only bytes a load may read, since it checks them first (R42). -/
theorem SameVisible.memRead_eq {s s' : State} (h : SameVisible s s') (w : Width) (addr : Word) :
    memRead s w addr = memRead s' w addr := by
  unfold memRead
  rw [← h.platform]
  split
  · rfl
  · split
    · next hallowed =>
      have hload := (allowed_iff _ _ _ _).1 hallowed
      rw [readLE_congr fun i hi => h.visibleBytes _ (.inl (hload i hi))]
    · rfl

/-- A store writes the same bytes or raises the same exception: it looks at the parameters alone (R42). -/
theorem SameVisible.memWrite_cases {s s' : State} (h : SameVisible s s') (w : Width) (addr v : Word) :
    (∃ r, memWrite s w addr v = .error r ∧ memWrite s' w addr v = .error r) ∨
    (memWrite s w addr v = .ok (writeLE s.mem addr.toNat v w.bytes) ∧
      memWrite s' w addr v = .ok (writeLE s'.mem addr.toNat v w.bytes)) := by
  unfold memWrite
  rw [← h.platform]
  split
  · exact .inl ⟨_, rfl, rfl⟩
  · split
    · exact .inr ⟨rfl, rfl⟩
    · exact .inl ⟨_, rfl, rfl⟩

/-- A fetch sees only bytes a fetch may read (R43). -/
theorem SameVisible.fetchInstr_eq {s s' : State} (h : SameVisible s s') : fetchInstr s = fetchInstr s' := by
  have hfetch : fetch s s.pc = fetch s' s.pc := by
    unfold fetch
    rw [← h.platform]
    split
    · rfl
    · split
      · next hallowed =>
        have hx := (allowed_iff _ _ _ _).1 hallowed
        rw [readLE_congr (w := .word) fun i hi => h.visibleBytes _ (.inr (hx i hi))]
      · rfl
  rw [fetchInstr, fetchInstr, ← h.pc, hfetch]

/-- A next state on the left is matched by one on the right that shows the same. -/
def SameNext (r r' : Result) : Prop := ∀ t, r = .next t → ∃ t', r' = .next t' ∧ SameVisible t t'

theorem SameVisible.sameNext {t t' : State} (h : SameVisible t t') : SameNext (.next t) (.next t') := by
  intro u hu
  cases hu
  exact ⟨t', rfl, h⟩

theorem SameVisible.sameNext_finishWith {s s' : State} (h : SameVisible s s') (rd : Reg) (v : Word) :
    SameNext (finishWith s rd v) (finishWith s' rd v) :=
  (h.setReg rd v).advance.sameNext

theorem SameVisible.sameNext_transferTo {s s' u u' : State} (h : SameVisible s s') (hu : SameVisible u u') (target : Word) :
    SameNext (transferTo s u target) (transferTo s' u' target) := by
  unfold transferTo
  split
  · exact (h.raise _).sameNext
  · exact (hu.setPc target).sameNext

theorem SameVisible.sameNext_branchIf {s s' : State} (h : SameVisible s s') (c : Bool) (imm : Word) :
    SameNext (branchIf s c imm) (branchIf s' c imm) := by
  unfold branchIf
  rw [← h.pc]
  split
  · exact h.sameNext_transferTo h _
  · exact h.advance.sameNext

theorem SameVisible.sameNext_loadInto {s s' : State} (h : SameVisible s s') (rd : Reg) (w : Width) (ext : Word → Word) (addr : Word) :
    SameNext (loadInto s rd w ext addr) (loadInto s' rd w ext addr) := by
  unfold loadInto
  rw [← h.memRead_eq]
  split
  · exact (h.raise _).sameNext
  · exact h.sameNext_finishWith rd _

theorem SameVisible.sameNext_storeAt {s s' : State} (h : SameVisible s s') (w : Width) (addr v : Word) :
    SameNext (storeAt s w addr v) (storeAt s' w addr v) := by
  unfold storeAt
  rcases h.memWrite_cases w addr v with ⟨r, e, e'⟩ | ⟨e, e'⟩ <;> rw [e, e']
  · exact (h.raise r).sameNext
  · exact (h.store addr.toNat v w.bytes).sameNext

/-- An instruction does the same in both states, by the shared operation it ends with: its operands come from the registers and the
pc, which are equal. -/
theorem SameVisible.sameNext_exec {s s' : State} (h : SameVisible s s') (i : Instr) : SameNext (exec i s) (exec i s') := by
  obtain ⟨m, rfl⟩ := h.exists_eq_with_mem
  cases i with
  | add | sub | slt | sltu | and | or | xor | sll | srl | sra
  | addi | slti | sltiu | andi | ori | xori | slli | srli | srai | lui | auipc => exact h.sameNext_finishWith _ _
  | jalr | jal => exact h.sameNext_transferTo (h.setReg _ _) _
  | lw | lh | lhu | lb | lbu => exact h.sameNext_loadInto _ _ _ _
  | sw | sh | sb => exact h.sameNext_storeAt _ _ _
  | beq | bne | blt | bge | bltu | bgeu => exact h.sameNext_branchIf _ _

/-- Settles O45, case by case of the step: both states halt, raise the same exception, or run the same instruction. -/
theorem unreadableMemoryIsNotObserved : Obligations.UnreadableMemoryIsNotObserved := by
  intro s s' t h hstep
  rcases step_cases s with ⟨-, e⟩ | ⟨_, _, _, -, e⟩ | ⟨hr, hp, e⟩ | ⟨hr, hp, r, hf, e⟩ | ⟨hr, hp, i, hf, e⟩
  · cases e.symm.trans hstep
  · cases e.symm.trans hstep
  all_goals rw [h.status] at hr; rw [h.pc, h.platform] at hp; rw [e] at hstep
  · rw [step_of_atEnd hr hp]
    exact h.halt.sameNext t hstep
  · rw [step_of_fetchInstr_error hr hp (h.fetchInstr_eq ▸ hf)]
    exact (h.raise r).sameNext t hstep
  · rw [step_of_fetchInstr_ok hr hp (h.fetchInstr_eq ▸ hf)]
    exact h.sameNext_exec i t hstep

/-! ## What changes memory (R40, R42, R47) -/

theorem finishWith_mem {s t : State} {rd : Reg} {v : Word} (h : finishWith s rd v = .next t) : t.mem = s.mem := by
  cases h
  simp

/-- A control transfer shows the memory as its link state `s'` does, or, when it raises, as it was. -/
theorem transferTo_mem {s s' t : State} {target : Word} (hs : s'.mem = s.mem) (h : transferTo s s' target = .next t) :
    t.mem = s.mem := by
  rcases transferTo_cases s s' target with ⟨-, e⟩ | ⟨-, e⟩ <;> cases e.symm.trans h
  · rfl
  · exact hs

theorem branchIf_mem {s t : State} {c : Bool} {imm : Word} (h : branchIf s c imm = .next t) : t.mem = s.mem := by
  rcases branchIf_cases s c imm with ⟨-, e⟩ | ⟨-, -, e⟩ | ⟨-, -, e⟩ <;> cases e.symm.trans h <;> rfl

theorem loadInto_mem {s t : State} {rd : Reg} {w : Width} {ext : Word → Word} {addr : Word}
    (h : loadInto s rd w ext addr = .next t) : t.mem = s.mem := by
  rcases loadInto_cases s rd w ext addr with ⟨-, e⟩ | ⟨-, -, e⟩ | ⟨-, -, e⟩ <;> cases e.symm.trans h <;> simp

/-- A byte that a store changes is one of those it stores, and all of these are writable (R42). -/
theorem storeAt_read_ne {s t : State} {w : Width} {addr v : Word} {x : Nat} (h : storeAt s w addr v = .next t)
    (hx : t.mem.read x ≠ s.mem.read x) :
    Accessible s .store addr.toNat w.bytes ∧ addr.toNat ≤ x ∧ x < addr.toNat + w.bytes := by
  rcases storeAt_cases s w addr v with ⟨-, e⟩ | ⟨-, hstore, e⟩ | ⟨-, -, e⟩ <;> cases e.symm.trans h
  · exact absurd rfl hx
  · refine ⟨hstore, ?_⟩
    by_contra houtside
    exact hx (read_writeLE_outside _ _ (by omega))
  · exact absurd rfl hx

/-- An instruction changes only writable bytes that it stores, by the shared operation it ends with. -/
theorem exec_read_ne {i : Instr} {s t : State} {x : Nat} (h : exec i s = .next t) (hx : t.mem.read x ≠ s.mem.read x) :
    ∃ a n, storedBytes s i = some (a, n) ∧ Accessible s .store a n ∧ a ≤ x ∧ x < a + n := by
  have hchanged : t.mem ≠ s.mem := fun e => hx (by rw [e])
  cases i with
  | add | sub | slt | sltu | and | or | xor | sll | srl | sra
  | addi | slti | sltiu | andi | ori | xori | slli | srli | srai | lui | auipc => exact absurd (finishWith_mem h) hchanged
  | jalr | jal => exact absurd (transferTo_mem (State.setReg_mem _ _ _) h) hchanged
  | lw | lh | lhu | lb | lbu => exact absurd (loadInto_mem h) hchanged
  | beq | bne | blt | bge | bltu | bgeu => exact absurd (branchIf_mem h) hchanged
  | sw | sh | sb => exact ⟨_, _, rfl, storeAt_read_ne h hx⟩

/-- Each byte of an access has the permission, by its own address. -/
theorem Accessible.permits_of_mem {s : State} {k : AccessKind} {a n x : Nat} (h : Accessible s k a n) (hlow : a ≤ x)
    (hhigh : x < a + n) : permits (permAt s.platform x) k = true := by
  obtain ⟨j, rfl⟩ := Nat.exists_eq_add_of_le hlow
  exact h j (by omega)

/-- Settles O33: halting and the exceptions of a fetch change no byte, an instruction only what it stores. -/
theorem changedBytesWereStoredTo : Obligations.ChangedBytesWereStoredTo := by
  intro s t x h hx
  rcases step_next_cases h with rfl | ⟨r, rfl⟩ | ⟨-, i, hd, he⟩
  · exact absurd rfl hx
  · exact absurd rfl hx
  · obtain ⟨a, n, hstored, hstore, hlow, hhigh⟩ := exec_read_ne he hx
    exact ⟨hstore.permits_of_mem hlow hhigh, i, a, n, hd, hstored, hlow, hhigh⟩

/-- A byte that may be fetched may not be written, so no step changes it (R54). -/
theorem step_read_of_fetchable {s t : State} {a : Nat} (hx : permits (permAt s.platform a) .fetch = true)
    (h : step s = .next t) : t.mem.read a = s.mem.read a := by
  by_contra hne
  obtain ⟨hw, -⟩ := changedBytesWereStoredTo s t a h hne
  exact not_store_and_fetch _ ⟨hw, hx⟩

/-- Settles O34, by induction on the run, over which the permissions stay what they were. -/
theorem executableMemoryNeverChanges : Obligations.ExecutableMemoryNeverChanges := by
  refine ⟨fun p a => not_store_and_fetch (permAt p a), fun s t a hreach hx => ?_⟩
  refine (hreach.induct (P := fun t => t.platform = s.platform ∧ t.mem.read a = s.mem.read a) ⟨rfl, rfl⟩ ?_).2
  intro t u ⟨hplatform, hread⟩ h
  have hkept := step_read_of_fetchable (hplatform ▸ hx) h
  exact ⟨(step_platform h).trans hplatform, hkept.trans hread⟩

/-! ## The program image in the start state (`70_reset_and_hazards.md` R241) -/

/-- The two high bytes of a word are its high half. -/
theorem append_high_bytes (v : Word) : v.extractLsb' 24 8 ++ v.extractLsb' 16 8 = v.extractLsb' 16 16 :=
  BitVec.extractLsb'_append_extractLsb'_eq_extractLsb' rfl

/-- A word is its four bytes put together again. -/
theorem append_bytes (v : Word) :
    v.extractLsb' 24 8 ++ v.extractLsb' 16 8 ++ v.extractLsb' 8 8 ++ v.extractLsb' 0 8 = v := by
  rw [append_high_bytes, BitVec.extractLsb'_append_extractLsb'_eq_extractLsb' (show 16 = 8 + 8 from rfl),
    BitVec.extractLsb'_append_extractLsb'_eq_extractLsb' (show 8 = 0 + 8 from rfl), BitVec.extractLsb'_eq_self]

/-- The bytes of `v` stand at `a`, lowest first (R42). -/
def HoldsWord (m : Memory) (a : Nat) (v : Word) : Prop := ∀ j < 4, m.read (a + j) = v.extractLsb' (8 * j) 8

/-- A memory reads a word where it holds the word's bytes (R43). -/
theorem HoldsWord.wordAt_eq {m : Memory} {a : Nat} {v : Word} (h : HoldsWord m a v) : wordAt m a = v := by
  have h0 : m.read a = v.extractLsb' 0 8 := h 0 (by decide)
  rw [wordAt, h 3 (by decide), h 2 (by decide), h 1 (by decide), h0]
  exact append_bytes v

theorem lookup_cell_of_ne {x a : Nat} (h : x ≠ a) (b : Byte) (cells : List Host.Cell) :
    List.lookup x ((a, b) :: cells) = cells.lookup x := by
  rw [List.lookup_cons, beq_false_of_ne h]

/-- The image names byte `j` of word `k` at `base + 4k + j`; the cells of the words before it are at lower addresses. -/
theorem lookup_imageCells {base k j : Nat} {ws : List Word} {w : Word} (hw : ws[k]? = some w) (hj : j < 4) :
    (imageCells base ws).lookup (base + 4 * k + j) = some (w.extractLsb' (8 * j) 8) := by
  induction ws generalizing base k with
  | nil => cases hw
  | cons v ws ih =>
    cases k with
    | zero =>
      cases hw
      interval_cases j <;> simp (disch := omega) [imageCells, lookup_cell_of_ne]
    | succ k =>
      have hlater : base + 4 * (k + 1) + j = (base + 4) + 4 * k + j := by omega
      rw [hlater, imageCells]
      simp (disch := omega) only [lookup_cell_of_ne]
      exact ih hw

/-- Settles O42: each byte of the word is mapped, so it holds what the first pair that names it gives, a cell of the image. -/
theorem loadedImageReadsBack : Obligations.LoadedImageReadsBack := by
  intro p s base ws rest hinit hlaunch hmapped k w hw
  obtain ⟨-, rfl⟩ := launch_eq_some_iff.1 hlaunch
  obtain ⟨hk, -⟩ := List.getElem?_eq_some_iff.1 hw
  refine HoldsWord.wordAt_eq fun j hj => ?_
  have hlookup : p.initMem.lookup (base + 4 * k + j) = some (w.extractLsb' (8 * j) 8) := by
    rw [hinit, List.lookup_append, lookup_imageCells hw hj, Option.some_or]
  have hread := read_initialMemory (hmapped (base + 4 * k + j) (by omega) (by omega)) p.initMem
  rwa [hlookup, Option.getD_some] at hread

/-! ## Accesses of different widths to the same bytes (R56) -/

/-- An access inside an accessible one is accessible. -/
theorem Accessible.sub {s : State} {k : AccessKind} {a n b l : Nat} (h : Accessible s k a n) (hlow : a ≤ b)
    (hhigh : b + l ≤ a + n) : Accessible s k b l :=
  fun _ hi => h.permits_of_mem (by omega) (by omega)

/-- The permissions are those of the parameters (R41). -/
theorem Accessible.of_platform_eq {s t : State} {k : AccessKind} {a n : Nat} (h : Accessible s k a n)
    (hp : t.platform = s.platform) : Accessible t k a n := by
  rwa [Accessible, hp]

/-- Inside an aligned word addresses do not wrap around. -/
theorem toNat_add_of_aligned {a off : Word} (ha : a.toNat % 4 = 0) (hoff : off.toNat < 4) :
    (a + off).toNat = a.toNat + off.toNat :=
  BitVec.toNat_add_of_lt (by have := a.isLt; omega)

/-- A load that is permitted completes with the extended value in `rd` (R42). -/
theorem exists_loadInto_reg {s : State} {rd : Reg} {w : Width} {addr : Word} (ext : Word → Word) (hrd : rd ≠ 0#5)
    (ha : addr.toNat % w.bytes = 0) (hload : Accessible s .load addr.toNat w.bytes) :
    ∃ u, loadInto s rd w ext addr = .next u ∧ u.reg rd = ext (readLE s.mem addr.toNat w) := by
  rcases loadInto_cases s rd w ext addr with ⟨hm, -⟩ | ⟨-, -, e⟩ | ⟨-, hx, -⟩
  · exact absurd ha hm
  · exact ⟨_, e, State.reg_setReg_self s hrd _⟩
  · exact absurd hload hx

/-- A store that is permitted completes with the bytes written (R42). -/
theorem storeAt_of_accessible {s : State} {w : Width} {addr v : Word} (ha : addr.toNat % w.bytes = 0)
    (hstore : Accessible s .store addr.toNat w.bytes) :
    storeAt s w addr v = .next { s with mem := writeLE s.mem addr.toNat v w.bytes, pc := s.pc + 4#32 } := by
  rcases storeAt_cases s w addr v with ⟨hm, -⟩ | ⟨-, -, e⟩ | ⟨-, hx, -⟩
  · exact absurd ha hm
  · exact e
  · exact absurd hstore hx

/-- A byte that was stored reads back. -/
theorem read_writeLE_inside (m : Memory) (a : Nat) (v : Word) {n j : Nat} (hj : j < n) :
    (writeLE m a v n).read (a + j) = v.extractLsb' (8 * j) 8 := by
  rw [read_writeLE, if_pos (by omega), Nat.add_sub_cancel_left]

/-- After a store of a word its bytes stand there. -/
theorem holdsWord_writeLE (m : Memory) (a : Nat) (v : Word) : HoldsWord (writeLE m a v 4) a v :=
  fun _ hj => read_writeLE_inside m a v hj

/-! The extensions of what a load reads, byte by byte -/

theorem signExtendByte_readLE (m : Memory) (a : Nat) : signExtendByte (readLE m a .byte) = (m.read a).signExtend 32 := by
  rw [signExtendByte, readLE, BitVec.extractLsb'_setWidth_of_le (by decide), BitVec.extractLsb'_eq_self]

theorem zeroExtendByte_readLE (m : Memory) (a : Nat) : zeroExtendByte (readLE m a .byte) = (m.read a).setWidth 32 := by
  rw [zeroExtendByte, readLE, BitVec.extractLsb'_setWidth_of_le (by decide), BitVec.extractLsb'_eq_self]

theorem zeroExtendHalf_readLE (m : Memory) (a : Nat) :
    zeroExtendHalf (readLE m a .half) = (m.read (a + 1) ++ m.read a).setWidth 32 := by
  rw [zeroExtendHalf, readLE, BitVec.extractLsb'_setWidth_of_le (by decide), BitVec.extractLsb'_eq_self]

/-- A load of a part of an aligned, readable word: any width, at an offset that is a multiple of it. -/
theorem exists_loadInto_within_word {s : State} {a off addr x : Word} {rd : Reg} {w : Width} {ext : Word → Word}
    (ha : a.toNat % 4 = 0) (hload : Accessible s .load a.toNat 4) (hrd : rd ≠ 0#5) (haddr : addr = a + off)
    (hoff : off.toNat % w.bytes = 0 ∧ off.toNat + w.bytes ≤ 4) (hx : ext (readLE s.mem (a.toNat + off.toNat) w) = x) :
    ∃ u, loadInto s rd w ext addr = .next u ∧ u.reg rd = x := by
  obtain ⟨hmod, hend⟩ := hoff
  have hnat : addr.toNat = a.toNat + off.toNat := by
    rw [haddr, toNat_add_of_aligned ha (by have := w.bytes_pos; omega)]
  have haligned : addr.toNat % w.bytes = 0 := by
    rw [hnat]
    cases w <;> simp only [Width.bytes] at hmod ⊢ <;> omega
  have hpart : Accessible s .load addr.toNat w.bytes := hload.sub (by omega) (by omega)
  obtain ⟨u, hu, hreg⟩ := exists_loadInto_reg ext hrd haligned hpart
  exact ⟨u, hu, by rw [hreg, hnat, hx]⟩

/-- The loads of R56 from an aligned, readable word whose bytes are those of `v`. -/
theorem loads_of_word {t : State} {a v : Word} (ha : a.toNat % 4 = 0) (hload : Accessible t .load a.toNat 4)
    (hbytes : HoldsWord t.mem a.toNat v) (rd b : Reg) (off : Word) (hrd : rd ≠ 0#5) :
    (effectiveAddress t b off = a → ∃ u, exec (.lw rd b off) t = .next u ∧ u.reg rd = v) ∧
    (effectiveAddress t b off = a → ∃ u, exec (.lb rd b off) t = .next u ∧ u.reg rd = (v.extractLsb' 0 8).signExtend 32) ∧
    (effectiveAddress t b off = a + 3#32 → ∃ u, exec (.lbu rd b off) t = .next u ∧
      u.reg rd = (v.extractLsb' 24 8).setWidth 32) ∧
    (effectiveAddress t b off = a + 2#32 → ∃ u, exec (.lhu rd b off) t = .next u ∧
      u.reg rd = (v.extractLsb' 16 16).setWidth 32) := by
  have hzero : a = a + 0#32 := (BitVec.add_zero a).symm
  refine ⟨fun e => ?_, fun e => ?_, fun e => ?_, fun e => ?_⟩
  · exact exists_loadInto_within_word ha hload hrd (e.trans hzero) (by decide) hbytes.wordAt_eq
  · refine exists_loadInto_within_word ha hload hrd (e.trans hzero) (by decide) ?_
    rw [signExtendByte_readLE]
    exact congrArg (BitVec.signExtend 32) (hbytes 0 (by decide))
  · refine exists_loadInto_within_word ha hload hrd e (by decide) ?_
    rw [zeroExtendByte_readLE]
    exact congrArg (BitVec.setWidth 32) (hbytes 3 (by decide))
  · refine exists_loadInto_within_word ha hload hrd e (by decide) ?_
    have hlow : t.mem.read (a.toNat + (2#32).toNat) = v.extractLsb' 16 8 := hbytes 2 (by decide)
    have hhigh : t.mem.read (a.toNat + (2#32).toNat + 1) = v.extractLsb' 24 8 := hbytes 3 (by decide)
    rw [zeroExtendHalf_readLE, hlow, hhigh, append_high_bytes]

/-- The word at `a` after a store into its byte 1. -/
theorem wordAt_writeLE_second_byte {m : Memory} {a : Nat} {v : Word} (b : Word)
    (hbytes : HoldsWord m a v) :
    wordAt (writeLE m (a + 1) b 1) a = v.extractLsb' 16 16 ++ b.extractLsb' 0 8 ++ v.extractLsb' 0 8 := by
  have hkept : ∀ j < 4, j ≠ 1 → (writeLE m (a + 1) b 1).read (a + j) = v.extractLsb' (8 * j) 8 := fun j hj hne => by
    rw [read_writeLE_outside _ _ (by omega), hbytes j hj]
  have h0 : (writeLE m (a + 1) b 1).read a = v.extractLsb' 0 8 := hkept 0 (by decide) (by decide)
  have h1 : (writeLE m (a + 1) b 1).read (a + 1) = b.extractLsb' 0 8 := read_writeLE_inside m (a + 1) b (j := 0) (by decide)
  have h2 : (writeLE m (a + 1) b 1).read (a + 2) = v.extractLsb' 16 8 := hkept 2 (by decide) (by decide)
  have h3 : (writeLE m (a + 1) b 1).read (a + 3) = v.extractLsb' 24 8 := hkept 3 (by decide) (by decide)
  rw [wordAt, h3, h2, h1, h0, append_high_bytes]

/-- The store of R56 into byte 1 of an aligned word whose bytes are those of `v`, and the load of the word after it. -/
theorem load_after_store_of_second_byte {t : State} {a v : Word} (ha : a.toNat % 4 = 0)
    (hstore : Accessible t .store a.toNat 4) (hload : Accessible t .load a.toNat 4)
    (hbytes : HoldsWord t.mem a.toNat v) (q b : Reg) (off : Word)
    (haddr : effectiveAddress t b off = a + 1#32) :
    ∃ u, exec (.sb q b off) t = .next u ∧ ∀ (rd c : Reg) (off' : Word), rd ≠ 0#5 → effectiveAddress u c off' = a →
      ∃ u', exec (.lw rd c off') u = .next u' ∧
        u'.reg rd = v.extractLsb' 16 16 ++ (t.reg q).extractLsb' 0 8 ++ v.extractLsb' 0 8 := by
  have hsecond : (effectiveAddress t b off).toNat = a.toNat + 1 := by
    rw [haddr]
    exact toNat_add_of_aligned ha (by decide)
  have hbyte : Accessible t .store (effectiveAddress t b off).toNat 1 := hstore.sub (by omega) (by omega)
  refine ⟨_, storeAt_of_accessible (w := .byte) (Nat.mod_one _) hbyte, fun rd c off' hrd e => ?_⟩
  have hzero : a = a + 0#32 := (BitVec.add_zero a).symm
  refine exists_loadInto_within_word ha (hload.of_platform_eq rfl) hrd (e.trans hzero) (by decide) ?_
  rw [hsecond]
  exact wordAt_writeLE_second_byte (t.reg q) hbytes

/-- Settles O44: after the `sw` the bytes in memory are those of the word stored, and the accesses that follow see them. -/
theorem mixedWidthAccesses : Obligations.MixedWidthAccesses := by
  intro rs2 rs1 imm s a haddr ha hstore hload
  subst haddr
  have hbytes := holdsWord_writeLE s.mem (effectiveAddress s rs1 imm).toNat (s.reg rs2)
  refine ⟨_, storeAt_of_accessible (w := .word) ha hstore, ?_, ?_⟩
  · exact loads_of_word ha (hload.of_platform_eq rfl) hbytes
  · exact load_after_store_of_second_byte ha (hstore.of_platform_eq rfl) (hload.of_platform_eq rfl) hbytes

/-! ## Control transfers into memory that may not be fetched (R43, R44) -/

/-! The comparisons a branch consumes, on integers (`00_scope.md` R11) -/

theorem equalWords_iff (a b : Word) : equalWords a b = true ↔ a = b := beq_iff_eq

theorem lessSigned_iff (a b : Word) : lessSigned a b = true ↔ a.toInt < b.toInt := BitVec.slt_iff_toInt_lt

theorem lessUnsigned_iff (a b : Word) : lessUnsigned a b = true ↔ a.toNat < b.toNat := BitVec.ult_iff_lt

/-- A transfer to an aligned target completes (R44). -/
theorem transferTo_of_aligned {s s' : State} {target : Word} (ha : target.toNat % 4 = 0) :
    transferTo s s' target = .next (s'.setPc target) := by
  rcases transferTo_cases s s' target with ⟨hm, -⟩ | ⟨-, e⟩
  · exact absurd ha hm
  · exact e

/-- A branch that is taken transfers control and writes no register (R180). -/
theorem branchIf_of_taken {s : State} {c : Bool} {imm : Word} (hc : c = true) (ha : (s.pc + imm).toNat % 4 = 0) :
    branchIf s c imm = .next (s.setPc (s.pc + imm)) := by
  rw [branchIf, if_pos hc, transferTo_of_aligned ha]

/-- A jump or a taken branch to an aligned target completes there, whatever memory is at the target; a jump writes its link. -/
theorem exec_of_transfersTo {i : Instr} {s : State} {target : Word} (h : TransfersTo s target i)
    (ha : target.toNat % 4 = 0) : ∃ rd v, exec i s = .next ((s.setReg rd v).setPc target) := by
  cases i with
  | jal rd imm | jalr rd rs1 imm =>
    cases h
    exact ⟨rd, linkValue s, transferTo_of_aligned ha⟩
  | beq a b imm | bne a b imm | blt a b imm | bge a b imm | bltu a b imm | bgeu a b imm =>
    obtain ⟨hc, rfl⟩ := h
    refine ⟨0#5, 0#32, branchIf_of_taken ?_ ha⟩
    simpa [equalWords_iff, lessSigned_iff, lessUnsigned_iff, ← Bool.not_eq_true] using hc
  | _ => cases h

/-- Settles O46: the transfer changes no permission, so the fetch at the target finds what it would have found before. -/
theorem jumpIntoAbsentMemoryFaultsOnFetch : Obligations.JumpIntoAbsentMemoryFaultsOnFetch := by
  intro s i target hrun htransfer ha hend hx
  obtain ⟨rd, v, hexec⟩ := exec_of_transfersTo htransfer ha
  have hplatform : ((s.setReg rd v).setPc target).platform = s.platform := by simp
  have hrun' : ((s.setReg rd v).setPc target).status = .running := by simpa using hrun
  refine ⟨_, hexec, rfl, hrun', ?_⟩
  obtain ⟨-, hfault, -⟩ := fetchChecksInOrder _ hrun' (by simpa using hend)
  exact hfault ha fun hx' => hx (hx'.of_platform_eq hplatform.symm)

end Sys2Proof.Machine
end

section
/-! Encoding (`30_encoding.md` R71 to R87): the two round trips between words and instructions, the rows of the opcode map against the
decoder, and the words that are no instruction. -/

namespace Sys2Proof.Machine

/-! ## A word is its fields, format by format (R72 to R78) -/

section
variable {w : Word} {f7 : BitVec 7} {f3 : BitVec 3} {op : BitVec 7}

theorem encodeR_fields (hop : opcodeField w = op) (h3 : funct3Field w = f3) (h7 : funct7Field w = f7) :
    encodeR f7 (rs2Field w) (rs1Field w) f3 (rdField w) op = w := by
  subst hop h3 h7
  apply BitVec.eq_of_getLsbD_eq; intro i hi
  simp only [encodeR, funct7Field, rs2Field, rs1Field, funct3Field, rdField, opcodeField, BitVec.getLsbD_append,
    BitVec.getLsbD_extractLsb']
  interval_cases i <;> rfl

theorem encodeI_fields (hop : opcodeField w = op) (h3 : funct3Field w = f3) :
    encodeI (immI w) (rs1Field w) f3 (rdField w) op = w := by
  subst hop h3
  apply BitVec.eq_of_getLsbD_eq; intro i hi
  simp only [encodeI, immI, rs1Field, funct3Field, rdField, opcodeField, BitVec.getLsbD_append, BitVec.getLsbD_extractLsb',
    BitVec.getLsbD_signExtend]
  interval_cases i <;> simp

theorem encodeS_fields (hop : opcodeField w = op) (h3 : funct3Field w = f3) :
    encodeS (immS w) (rs2Field w) (rs1Field w) f3 op = w := by
  subst hop h3
  apply BitVec.eq_of_getLsbD_eq; intro i hi
  simp only [encodeS, immS, rs2Field, rs1Field, funct3Field, opcodeField, BitVec.getLsbD_append, BitVec.getLsbD_extractLsb',
    BitVec.getLsbD_signExtend]
  interval_cases i <;> simp

theorem encodeB_fields (hop : opcodeField w = op) (h3 : funct3Field w = f3) :
    encodeB (immB w) (rs2Field w) (rs1Field w) f3 op = w := by
  subst hop h3
  apply BitVec.eq_of_getLsbD_eq; intro i hi
  simp only [encodeB, immB, rs2Field, rs1Field, funct3Field, opcodeField, BitVec.getLsbD_append, BitVec.getLsbD_extractLsb',
    BitVec.getLsbD_signExtend]
  interval_cases i <;> simp

theorem encodeU_fields (hop : opcodeField w = op) : encodeU (immU w) (rdField w) op = w := by
  subst hop
  apply BitVec.eq_of_getLsbD_eq; intro i hi
  simp only [encodeU, immU, rdField, opcodeField, BitVec.getLsbD_append, BitVec.getLsbD_extractLsb']
  interval_cases i <;> simp

theorem encodeJ_fields (hop : opcodeField w = op) : encodeJ (immJ w) (rdField w) op = w := by
  subst hop
  apply BitVec.eq_of_getLsbD_eq; intro i hi
  simp only [encodeJ, immJ, rdField, opcodeField, BitVec.getLsbD_append, BitVec.getLsbD_extractLsb', BitVec.getLsbD_signExtend]
  interval_cases i <;> simp

/-- The shift sub-format: the shift amount stands where `rs2` does (R74). -/
theorem encodeR_shamt_fields (hop : opcodeField w = op) (h3 : funct3Field w = f3) (h7 : funct7Field w = f7) :
    encodeR f7 ((immShamt w).extractLsb' 0 5) (rs1Field w) f3 (rdField w) op = w := by
  have hshamt : (immShamt w).extractLsb' 0 5 = rs2Field w := by
    apply BitVec.eq_of_toNat_eq
    simp [immShamt, rs2Field]
  rw [hshamt, encodeR_fields hop h3 h7]

end

/-! ## What a decoder reads is in its range (R79 to R84, R91) -/

theorem fitsImm12_signExtend (v : BitVec 12) : fitsImm12 (v.signExtend 32) = true := by
  have hrange := signExtend_range 11 (by decide) v
  exact decide_eq_true (by omega)

theorem fitsShamt_immShamt (w : Word) : fitsShamt (immShamt w) = true := by
  have hlt := (w.extractLsb' 20 5).isLt
  refine decide_eq_true ?_
  rw [immShamt, BitVec.toNat_setWidth]
  omega

theorem fitsUpper_immU (w : Word) : fitsUpper (immU w) = true := by
  refine decide_eq_true ?_
  rw [immU, BitVec.toNat_append, Nat.shiftLeft_eq]
  simp

/-- Sign extension keeps a zero in the lowest bit. -/
theorem signExtend_append_zero_even {n : Nat} (v : BitVec n) : ((v ++ 0#1).signExtend 32).toNat % 2 = 0 := by
  have hbit : ((v ++ 0#1).signExtend 32).getLsbD 0 = false := by
    simp only [BitVec.getLsbD_signExtend, BitVec.getLsbD_append]
    simp
  simpa [BitVec.getLsbD, Nat.testBit_zero] using hbit

theorem toInt_even {v : Word} (h : v.toNat % 2 = 0) : v.toInt % 2 = 0 := by
  rw [BitVec.toInt_eq_toNat_cond]
  split <;> omega

theorem fitsBranch_immB (w : Word) : fitsBranch (immB w) = true := by
  have heven : (immB w).toNat % 2 = 0 := signExtend_append_zero_even (n := 12) _
  have heven' := toInt_even heven
  have hrange : -(2 ^ 12 : Int) ≤ (immB w).toInt ∧ (immB w).toInt < (2 ^ 12 : Int) := signExtend_range 12 (by decide) _
  exact decide_eq_true (by omega)

theorem fitsJump_immJ (w : Word) : fitsJump (immJ w) = true := by
  have heven : (immJ w).toNat % 2 = 0 := signExtend_append_zero_even (n := 20) _
  have heven' := toInt_even heven
  have hrange : -(2 ^ 20 : Int) ≤ (immJ w).toInt ∧ (immJ w).toInt < (2 ^ 20 : Int) := signExtend_range 20 (by decide) _
  exact decide_eq_true (by omega)

/-! ## A word that decodes is the word of its instruction (R86) -/

/-- The round trip from a word: `i` is well-formed and `w` is its word. -/
def IsWordOf (w : Word) (i : Instr) : Prop := encode i = w ∧ i.wellFormed = true

section
variable {w : Word} {i : Instr}

theorem isWordOf_of_decodeOp (hop : opcodeField w = 0b0110011#7) (h : decodeOp w = some i) : IsWordOf w i := by
  unfold decodeOp at h
  split at h
  · next h7 => split at h <;> cases h <;> exact ⟨encodeR_fields hop ‹_› h7, rfl⟩
  · split at h
    · next h7 => split at h <;> cases h <;> exact ⟨encodeR_fields hop ‹_› h7, rfl⟩
    · cases h

theorem isWordOf_of_decodeOpImm (hop : opcodeField w = 0b0010011#7) (h : decodeOpImm w = some i) : IsWordOf w i := by
  unfold decodeOpImm at h
  split at h
  case h_7 h3 =>
    split at h
    · next h7 => cases h; exact ⟨encodeR_shamt_fields hop h3 h7, fitsShamt_immShamt w⟩
    · cases h
  case h_8 h3 =>
    split at h
    · next h7 => cases h; exact ⟨encodeR_shamt_fields hop h3 h7, fitsShamt_immShamt w⟩
    · split at h
      · next h7 => cases h; exact ⟨encodeR_shamt_fields hop h3 h7, fitsShamt_immShamt w⟩
      · cases h
  all_goals cases h
  all_goals exact ⟨encodeI_fields hop ‹_›, fitsImm12_signExtend _⟩

theorem isWordOf_of_decodeLoad (hop : opcodeField w = 0b0000011#7) (h : decodeLoad w = some i) : IsWordOf w i := by
  unfold decodeLoad at h
  split at h <;> cases h <;> exact ⟨encodeI_fields hop ‹_›, fitsImm12_signExtend _⟩

theorem isWordOf_of_decodeStore (hop : opcodeField w = 0b0100011#7) (h : decodeStore w = some i) : IsWordOf w i := by
  unfold decodeStore at h
  split at h <;> cases h <;> exact ⟨encodeS_fields hop ‹_›, fitsImm12_signExtend _⟩

theorem isWordOf_of_decodeBranch (hop : opcodeField w = 0b1100011#7) (h : decodeBranch w = some i) : IsWordOf w i := by
  unfold decodeBranch at h
  split at h <;> cases h <;> exact ⟨encodeB_fields hop ‹_›, fitsBranch_immB w⟩

theorem isWordOf_of_decodeJalr (hop : opcodeField w = 0b1100111#7) (h : decodeJalr w = some i) : IsWordOf w i := by
  unfold decodeJalr at h
  split at h
  · next h3 => cases h; exact ⟨encodeI_fields hop h3, fitsImm12_signExtend _⟩
  · cases h

theorem isWordOf_of_decodeGroup (h : decodeGroup w = some i) : IsWordOf w i := by
  unfold decodeGroup at h
  split at h
  · next hop => exact isWordOf_of_decodeOp hop h
  · next hop => exact isWordOf_of_decodeOpImm hop h
  · next hop => exact isWordOf_of_decodeLoad hop h
  · next hop => exact isWordOf_of_decodeJalr hop h
  · next hop => exact isWordOf_of_decodeStore hop h
  · next hop => cases h; exact ⟨encodeU_fields hop, fitsUpper_immU w⟩
  · next hop => cases h; exact ⟨encodeU_fields hop, fitsUpper_immU w⟩
  · next hop => exact isWordOf_of_decodeBranch hop h
  · next hop => cases h; exact ⟨encodeJ_fields hop, fitsJump_immJ w⟩
  · cases h

theorem decode_eq_ok_iff : decode w = .ok i ↔ decodeGroup w = some i := by
  rcases decode_cases w with ⟨j, hg, hd⟩ | ⟨hg, hd⟩ <;> simp [hg, hd]

end

/-- Settles O2, group by group of the decoder. -/
theorem encodeOfDecodeIsIdentity : Obligations.EncodeOfDecodeIsIdentity := fun _ _ h =>
  isWordOf_of_decodeGroup (decode_eq_ok_iff.1 h)

/-! ## The word of a well-formed instruction decodes to it -/

/-- Settles O1: the fields of the word select the group and the instruction, the immediate is read back in its format. -/
theorem decodeOfEncodeIsIdentity : Obligations.DecodeOfEncodeIsIdentity := by
  intro i hwf
  rw [decode_eq_ok_iff]
  cases i with
  | add | sub | slt | sltu | and | or | xor | sll | srl | sra => simp [encode, decodeGroup, decodeOp]
  | jalr rd rs1 imm => simp [encode, decodeGroup, decodeJalr, immI_encodeI hwf]
  | lw rd rs1 imm | lh rd rs1 imm | lhu rd rs1 imm | lb rd rs1 imm | lbu rd rs1 imm =>
    simp [encode, decodeGroup, decodeLoad, immI_encodeI hwf]
  | addi rd rs1 imm | slti rd rs1 imm | sltiu rd rs1 imm | andi rd rs1 imm | ori rd rs1 imm | xori rd rs1 imm =>
    simp [encode, decodeGroup, decodeOpImm, immI_encodeI hwf]
  | slli rd rs1 shamt | srli rd rs1 shamt | srai rd rs1 shamt =>
    simp [encode, decodeGroup, decodeOpImm, immShamt_encode hwf]
  | sw rs2 rs1 imm | sh rs2 rs1 imm | sb rs2 rs1 imm => simp [encode, decodeGroup, decodeStore, immS_encodeS hwf]
  | lui rd imm | auipc rd imm => simp [encode, decodeGroup, immU_encodeU _ _ _ (immUpper_of_fits hwf)]
  | beq rs1 rs2 imm | bne rs1 rs2 imm | blt rs1 rs2 imm | bge rs1 rs2 imm | bltu rs1 rs2 imm | bgeu rs1 rs2 imm =>
    simp [encode, decodeGroup, decodeBranch, immB_encodeB hwf]
  | jal rd imm => simp [encode, decodeGroup, immJ_encodeJ hwf]

/-! ## What selects an instruction (R85, R86) -/

/-- The name of the instruction a word is, if it is one. -/
def nameOf (w : Word) : Option String := (decodeGroup w).map Instr.mnemonic

theorem nameOf_eq_some_iff {w : Word} {name : String} :
    nameOf w = some name ↔ ∃ i, decode w = .ok i ∧ i.mnemonic = name := by
  simp [nameOf, decode_eq_ok_iff]

/-- Formats U and J select by `opcode` alone, all others by `funct3` too. -/
abbrev SelectsByFunct3 (w : Word) : Prop := opcodeField w ∉ [0b0110111#7, 0b0010111#7, 0b1101111#7]

/-- Group OP and the shifts of group OP-IMM select by `funct7` too (R74). -/
abbrev SelectsByFunct7 (w : Word) : Prop :=
  opcodeField w = 0b0110011#7 ∨ opcodeField w = 0b0010011#7 ∧ (funct3Field w = 0b001#3 ∨ funct3Field w = 0b101#3)

/-- `w` agrees with `p` in the fields that select `p`'s instruction. -/
structure SameSelection (w p : Word) : Prop where
  opcode : opcodeField w = opcodeField p
  funct3 : SelectsByFunct3 p → funct3Field w = funct3Field p
  funct7 : SelectsByFunct7 p → funct7Field w = funct7Field p

section
variable {w p : Word}

theorem decodeOp_name_congr (h3 : funct3Field w = funct3Field p) (h7 : funct7Field w = funct7Field p) :
    (decodeOp w).map Instr.mnemonic = (decodeOp p).map Instr.mnemonic := by
  unfold decodeOp
  rw [h3, h7]
  split
  · split <;> rfl
  · split
    · split <;> rfl
    · rfl

theorem decodeOpImm_name_congr (h3 : funct3Field w = funct3Field p)
    (h7 : funct3Field p = 0b001#3 ∨ funct3Field p = 0b101#3 → funct7Field w = funct7Field p) :
    (decodeOpImm w).map Instr.mnemonic = (decodeOpImm p).map Instr.mnemonic := by
  unfold decodeOpImm
  rw [h3]
  split
  case h_7 hleft =>
    rw [h7 (.inl hleft)]
    split <;> rfl
  case h_8 hright =>
    rw [h7 (.inr hright)]
    split
    · rfl
    · split <;> rfl
  all_goals rfl

theorem decodeLoad_name_congr (h3 : funct3Field w = funct3Field p) :
    (decodeLoad w).map Instr.mnemonic = (decodeLoad p).map Instr.mnemonic := by
  unfold decodeLoad
  rw [h3]
  split <;> rfl

theorem decodeStore_name_congr (h3 : funct3Field w = funct3Field p) :
    (decodeStore w).map Instr.mnemonic = (decodeStore p).map Instr.mnemonic := by
  unfold decodeStore
  rw [h3]
  split <;> rfl

theorem decodeBranch_name_congr (h3 : funct3Field w = funct3Field p) :
    (decodeBranch w).map Instr.mnemonic = (decodeBranch p).map Instr.mnemonic := by
  unfold decodeBranch
  rw [h3]
  split <;> rfl

theorem decodeJalr_name_congr (h3 : funct3Field w = funct3Field p) :
    (decodeJalr w).map Instr.mnemonic = (decodeJalr p).map Instr.mnemonic := by
  unfold decodeJalr
  rw [h3]
  split <;> rfl

/-- The decoder reads the selecting fields and no other bit to choose the instruction. -/
theorem nameOf_congr (h : SameSelection w p) : nameOf w = nameOf p := by
  unfold nameOf decodeGroup
  rw [h.opcode]
  split
  · next hop => exact decodeOp_name_congr (h.funct3 (by simp [SelectsByFunct3, hop])) (h.funct7 (.inl hop))
  · next hop => exact decodeOpImm_name_congr (h.funct3 (by simp [SelectsByFunct3, hop])) fun hshift => h.funct7 (.inr ⟨hop, hshift⟩)
  · next hop => exact decodeLoad_name_congr (h.funct3 (by simp [SelectsByFunct3, hop]))
  · next hop => exact decodeJalr_name_congr (h.funct3 (by simp [SelectsByFunct3, hop]))
  · next hop => exact decodeStore_name_congr (h.funct3 (by simp [SelectsByFunct3, hop]))
  · rfl
  · rfl
  · next hop => exact decodeBranch_name_congr (h.funct3 (by simp [SelectsByFunct3, hop]))
  · rfl
  · rfl

end

/-! ## The rows of the opcode map (R85) -/

/-- A field all of whose bits the mask keeps is that of the pattern. -/
theorem extractLsb'_of_match {w mask pattern : Word} {start len : Nat} (h : w &&& mask = pattern)
    (hmask : mask.extractLsb' start len = BitVec.allOnes len) : w.extractLsb' start len = pattern.extractLsb' start len := by
  rw [← h, BitVec.extractLsb'_and, hmask, BitVec.and_allOnes]

/-- A row's mask keeps the fields that select its instruction. -/
theorem mask_keeps_selection {row : OpcodeRow} (hrow : row ∈ opcodeTable) :
    opcodeField row.mask = BitVec.allOnes 7 ∧
    (SelectsByFunct3 row.pattern → funct3Field row.mask = BitVec.allOnes 3) ∧
    (SelectsByFunct7 row.pattern → funct7Field row.mask = BitVec.allOnes 7) := by
  have hrows : ∀ row ∈ opcodeTable, opcodeField row.mask = BitVec.allOnes 7 ∧
      (SelectsByFunct3 row.pattern → funct3Field row.mask = BitVec.allOnes 3) ∧
      (SelectsByFunct7 row.pattern → funct7Field row.mask = BitVec.allOnes 7) := by decide
  exact hrows row hrow

/-- A row's pattern is itself a word of the row's instruction: the one with all other fields zero. -/
theorem nameOf_pattern {row : OpcodeRow} (hrow : row ∈ opcodeTable) : nameOf row.pattern = some row.mnemonic := by
  have hrows : ∀ row ∈ opcodeTable, nameOf row.pattern = some row.mnemonic := by decide
  exact hrows row hrow

section
variable {w : Word} {row : OpcodeRow}

theorem sameSelection_of_match (hrow : row ∈ opcodeTable) (h : w &&& row.mask = row.pattern) : SameSelection w row.pattern := by
  obtain ⟨hop, h3, h7⟩ := mask_keeps_selection hrow
  exact ⟨extractLsb'_of_match h hop, fun hs => extractLsb'_of_match h (h3 hs), fun hs => extractLsb'_of_match h (h7 hs)⟩

/-- A word that matches a row is the row's instruction. -/
theorem nameOf_of_match (hrow : row ∈ opcodeTable) (h : w &&& row.mask = row.pattern) : nameOf w = some row.mnemonic :=
  (nameOf_congr (sameSelection_of_match hrow h)).trans (nameOf_pattern hrow)

end

/-- The word of every instruction matches the instruction's own row. -/
theorem encode_matches_row (i : Instr) : Laws.OpcodeRow.Statement i := by
  cases i
  exacts [Laws.OpcodeRow.add .., Laws.OpcodeRow.sub .., Laws.OpcodeRow.slt .., Laws.OpcodeRow.sltu .., Laws.OpcodeRow.and ..,
    Laws.OpcodeRow.or .., Laws.OpcodeRow.xor .., Laws.OpcodeRow.sll .., Laws.OpcodeRow.srl .., Laws.OpcodeRow.sra ..,
    Laws.OpcodeRow.jalr .., Laws.OpcodeRow.lw .., Laws.OpcodeRow.lh .., Laws.OpcodeRow.lhu .., Laws.OpcodeRow.lb ..,
    Laws.OpcodeRow.lbu .., Laws.OpcodeRow.addi .., Laws.OpcodeRow.slti .., Laws.OpcodeRow.sltiu .., Laws.OpcodeRow.andi ..,
    Laws.OpcodeRow.ori .., Laws.OpcodeRow.xori .., Laws.OpcodeRow.slli .., Laws.OpcodeRow.srli .., Laws.OpcodeRow.srai ..,
    Laws.OpcodeRow.sw .., Laws.OpcodeRow.sh .., Laws.OpcodeRow.sb .., Laws.OpcodeRow.lui .., Laws.OpcodeRow.auipc ..,
    Laws.OpcodeRow.beq .., Laws.OpcodeRow.bne .., Laws.OpcodeRow.blt .., Laws.OpcodeRow.bge .., Laws.OpcodeRow.bltu ..,
    Laws.OpcodeRow.bgeu .., Laws.OpcodeRow.jal ..]

/-- A word that decodes matches the row of its instruction. -/
theorem row_of_decode {w : Word} {i : Instr} (h : decode w = .ok i) :
    ∃ row ∈ opcodeTable, row.mnemonic = i.mnemonic ∧ w &&& row.mask = row.pattern := by
  obtain ⟨rfl, -⟩ := encodeOfDecodeIsIdentity w i h
  exact encode_matches_row i

theorem decode_of_no_match {w : Word} (h : ∀ row ∈ opcodeTable, w &&& row.mask ≠ row.pattern) :
    decode w = .error (.illegalInstruction w) := by
  rcases decode_cases w with ⟨i, -, hd⟩ | ⟨-, hd⟩
  · obtain ⟨row, hrow, -, hmatch⟩ := row_of_decode hd
    exact absurd hmatch (h row hrow)
  · exact hd

theorem eq_of_mnemonic_eq {r q : OpcodeRow} (hr : r ∈ opcodeTable) (hq : q ∈ opcodeTable) (h : r.mnemonic = q.mnemonic) :
    r = q := by
  have hnodup : (opcodeTable.map OpcodeRow.mnemonic).Nodup := by decide
  exact List.inj_on_of_nodup_map hnodup hr hq h

/-- Settles O3: two rows that match one word both name its instruction, and no name stands twice in the table. -/
theorem decodeAgreesWithOpcodeTable : Obligations.DecodeAgreesWithOpcodeTable := by
  refine ⟨fun _ _ => row_of_decode, fun w row hrow h => ?_, fun _ => decode_of_no_match, fun w r hr q hq hwr hwq => ?_⟩
  · exact nameOf_eq_some_iff.1 (nameOf_of_match hrow h)
  · have hname : some r.mnemonic = some q.mnemonic := (nameOf_of_match hr hwr).symm.trans (nameOf_of_match hq hwq)
    exact eq_of_mnemonic_eq hr hq (Option.some.inj hname)

/-! ## Words that are no instruction (R87) -/

/-- The opcodes of the words R87 lists: fence, system, atomic, floating-point and custom. -/
def unlistedOpcodes : List (BitVec 7) :=
  [0b0001111#7, 0b1110011#7, 0b0101111#7, 0b0000111#7, 0b0100111#7, 0b1000011#7, 0b1000111#7, 0b1001011#7, 0b1001111#7, 0b1010011#7,
    0b0001011#7, 0b0101011#7, 0b1011011#7, 0b1111011#7]

section
variable {w : Word} {row : OpcodeRow}

theorem lowBits_of_match (hrow : row ∈ opcodeTable) (h : w &&& row.mask = row.pattern) : w.extractLsb' 0 2 = 0b11#2 := by
  have hrows : ∀ row ∈ opcodeTable,
      row.mask.extractLsb' 0 2 = BitVec.allOnes 2 ∧ row.pattern.extractLsb' 0 2 = 0b11#2 := by decide
  obtain ⟨hmask, hpattern⟩ := hrows row hrow
  rw [extractLsb'_of_match h hmask, hpattern]

theorem opcodeField_of_match (hrow : row ∈ opcodeTable) (h : w &&& row.mask = row.pattern) :
    opcodeField w ≠ 0b1111111#7 ∧ opcodeField w ∉ unlistedOpcodes := by
  have hrows : ∀ row ∈ opcodeTable, opcodeField row.pattern ≠ 0b1111111#7 ∧ opcodeField row.pattern ∉ unlistedOpcodes := by decide
  rw [(sameSelection_of_match hrow h).opcode]
  exact hrows row hrow

/-- Group OP has no row with the `funct7` of multiply and divide. -/
theorem funct7Field_of_match (hrow : row ∈ opcodeTable) (h : w &&& row.mask = row.pattern) (hop : opcodeField w = 0b0110011#7) :
    funct7Field w ≠ 0b0000001#7 := by
  have hrows : ∀ row ∈ opcodeTable, opcodeField row.pattern = 0b0110011#7 → funct7Field row.pattern ≠ 0b0000001#7 := by decide
  have hsel := sameSelection_of_match hrow h
  have hop' : opcodeField row.pattern = 0b0110011#7 := hsel.opcode.symm.trans hop
  rw [hsel.funct7 (.inl hop')]
  exact hrows row hrow hop'

end

/-- Settles O27: an unmatched word does not decode, so its fetch raises; each listed kind of word fails a condition all rows have. -/
theorem unlistedWordsAreIllegal : Obligations.UnlistedWordsAreIllegal := by
  refine ⟨fun s hs hno => ?_, fun w hw row hrow h => ?_⟩
  · have hd := decode_of_no_match hno
    exact step_of_fetchInstr_error hs.running hs.notAtEnd
      (fetchInstr_of_undecodable hs.aligned hs.executable fun i hi => by cases hd.symm.trans hi)
  · have hlow := lowBits_of_match hrow h
    obtain ⟨hones, hopcode⟩ := opcodeField_of_match hrow h
    rcases hw with rfl | rfl | hbits | hlisted | ⟨hop, h7⟩
    · exact absurd hlow (by decide)
    · exact hones (by decide)
    · exact hbits hlow
    · exact hopcode hlisted
    · exact funct7Field_of_match hrow h hop h7

end Sys2Proof.Machine
end

section
/-! The assembler (`30_encoding.md` R89 to R91): the operand ranges, label offsets, and why every accepted instruction is well-formed. -/

namespace Sys2Proof.Machine

/-! ## Operand ranges (R91) -/

/-- In the range of 32 signed bits the value of an integer is that integer. -/
theorem ofInt_eq_iff_toInt {n : Int} {v : Word} (h1 : -2147483648 ≤ n) (h2 : n < 2147483648) :
    BitVec.ofInt 32 n = v ↔ v.toInt = n := by
  have hn : (BitVec.ofInt 32 n).toInt = n := BitVec.toInt_ofInt_eq_self (by decide) (by simpa using h1) (by simpa using h2)
  rw [← BitVec.toInt_inj, hn, eq_comm]

/-- In the range of 32 unsigned bits the value of an integer is that integer. -/
theorem ofInt_eq_iff_toNat {n : Int} {v : Word} (h1 : 0 ≤ n) (h2 : n < 4294967296) :
    BitVec.ofInt 32 n = v ↔ (v.toNat : Int) = n := by
  rw [← BitVec.toNat_inj, BitVec.toNat_ofInt]
  omega

/-- A check by a condition that keeps a number in the range of 32 signed bits. -/
theorem check_eq_ok_iff {P : Prop} [Decidable P] {n : Int} {v : Word} (hP : P → -2147483648 ≤ n ∧ n < 2147483648) :
    (if P then .ok (BitVec.ofInt 32 n) else .error .operandOutOfRange : Except AsmError Word) = .ok v ↔ P ∧ v.toInt = n := by
  split
  · next h => simp [h, ofInt_eq_iff_toInt (hP h).1 (hP h).2]
  · next h => simp [h]

section
variable {n : Int} {v : Word}

theorem checkImm12_eq_ok_iff : checkImm12 n = .ok v ↔ (-2048 ≤ n ∧ n ≤ 2047) ∧ v.toInt = n :=
  check_eq_ok_iff (by omega)

theorem checkShamt_eq_ok_iff : checkShamt n = .ok v ↔ (0 ≤ n ∧ n ≤ 31) ∧ v.toInt = n :=
  check_eq_ok_iff (by omega)

theorem checkBranch_eq_ok_iff : checkBranch n = .ok v ↔ (n % 2 = 0 ∧ -4096 ≤ n ∧ n ≤ 4094) ∧ v.toInt = n :=
  check_eq_ok_iff (by omega)

theorem checkJump_eq_ok_iff : checkJump n = .ok v ↔ (n % 2 = 0 ∧ -1048576 ≤ n ∧ n ≤ 1048574) ∧ v.toInt = n :=
  check_eq_ok_iff (by omega)

theorem checkUpper_eq_ok_iff : checkUpper n = .ok v ↔ (0 ≤ n ∧ n ≤ 1048575) ∧ (v.toNat : Int) = n * 4096 := by
  unfold checkUpper
  split
  · next h => simp [h, ofInt_eq_iff_toNat (v := v) (n := n * 4096) (by omega) (by omega)]
  · next h => simp [h]

end

/-- Settles O50, check by check. -/
theorem operandRangesAreEnforced : Obligations.OperandRangesAreEnforced := fun _ =>
  ⟨fun _ => checkImm12_eq_ok_iff, fun _ => checkShamt_eq_ok_iff, fun _ => checkUpper_eq_ok_iff, fun _ => checkBranch_eq_ok_iff,
    fun _ => checkJump_eq_ok_iff⟩

/-! ## Labels (R90) -/

theorem parseTarget_of_label {check : Int → Except AsmError Word} {labels : Labels} {here a : Word} {name : List Char}
    (hname : parseNumber name = none) (hlabel : labels.lookup name = some a) :
    parseTarget check labels here name = check ((a.toNat : Int) - here.toNat) := by
  simp [parseTarget, hname, hlabel]

/-- An offset that is the difference of two addresses leads from the one to the other, modulo 2^32. -/
theorem add_eq_of_toInt_eq_sub {here a imm : Word} (h : imm.toInt = (a.toNat : Int) - here.toNat) : here + imm = a := by
  apply BitVec.eq_of_toNat_eq
  rw [BitVec.toNat_add]
  rw [BitVec.toInt_eq_toNat_cond] at h
  have ha := a.isLt
  split at h <;> omega

/-- Settles O48: what either check accepts is the difference of the addresses. -/
theorem labelsAreByteOffsets : Obligations.LabelsAreByteOffsets := by
  intro labels here a imm name hname hlabel
  rw [parseTarget_of_label hname hlabel, parseTarget_of_label hname hlabel]
  exact ⟨fun h => add_eq_of_toInt_eq_sub (checkJump_eq_ok_iff.1 h).2, fun h => add_eq_of_toInt_eq_sub (checkBranch_eq_ok_iff.1 h).2⟩

/-! ## What a check accepts fits its format -/

theorem toNat_even_of_toInt {v : Word} (h : v.toInt % 2 = 0) : v.toNat % 2 = 0 := by
  rw [BitVec.toInt_eq_toNat_cond] at h
  split at h <;> omega

section
variable {n : Int} {v : Word}

theorem fitsImm12_of_checkImm12 (h : checkImm12 n = .ok v) : fitsImm12 v = true := by
  obtain ⟨hrange, hv⟩ := checkImm12_eq_ok_iff.1 h
  exact decide_eq_true (by omega)

theorem fitsShamt_of_checkShamt (h : checkShamt n = .ok v) : fitsShamt v = true := by
  obtain ⟨hrange, hv⟩ := checkShamt_eq_ok_iff.1 h
  rw [BitVec.toInt_eq_toNat_cond] at hv
  refine decide_eq_true ?_
  split at hv <;> omega

theorem fitsUpper_of_checkUpper (h : checkUpper n = .ok v) : fitsUpper v = true := by
  obtain ⟨-, hv⟩ := checkUpper_eq_ok_iff.1 h
  exact decide_eq_true (by omega)

theorem fitsBranch_of_checkBranch (h : checkBranch n = .ok v) : fitsBranch v = true := by
  obtain ⟨hrange, hv⟩ := checkBranch_eq_ok_iff.1 h
  have heven := toNat_even_of_toInt (v := v) (by omega)
  exact decide_eq_true (by omega)

theorem fitsJump_of_checkJump (h : checkJump n = .ok v) : fitsJump v = true := by
  obtain ⟨hrange, hv⟩ := checkJump_eq_ok_iff.1 h
  have heven := toNat_even_of_toInt (v := v) (by omega)
  exact decide_eq_true (by omega)

end

/-! ## What the operand parsers accept (R89) -/

section
variable {check : Int → Except AsmError Word} {value : List Char → Except AsmError Word} {v : Word} {i : Instr} {ops : List Token}

theorem check_of_parseImmediate {cs : List Char} (h : parseImmediate check cs = .ok v) : ∃ n, check n = .ok v := by
  unfold parseImmediate at h
  split at h
  · exact ⟨_, h⟩
  · cases h

theorem check_of_parseTarget {labels : Labels} {here : Word} {cs : List Char} (h : parseTarget check labels here cs = .ok v) :
    ∃ n, check n = .ok v := by
  unfold parseTarget at h
  split at h
  · exact ⟨_, h⟩
  · split at h
    · exact ⟨_, h⟩
    · cases h

theorem parseRegisters3_cases {mk : Reg → Reg → Reg → Instr} (h : parseRegisters3 mk ops = .ok i) :
    ∃ rd rs1 rs2, i = mk rd rs1 rs2 := by
  unfold parseRegisters3 at h
  split at h
  · split at h <;> cases h
    exact ⟨_, _, _, rfl⟩
  · cases h

theorem parseRegisters2_cases {mk : Reg → Reg → Word → Instr} (h : parseRegisters2 mk value ops = .ok i) :
    ∃ r q v cs, value cs = .ok v ∧ i = mk r q v := by
  unfold parseRegisters2 at h
  split at h
  · split at h <;> cases h
    exact ⟨_, _, _, _, ‹_›, rfl⟩
  · cases h

theorem parseRegister1_cases {mk : Reg → Word → Instr} (h : parseRegister1 mk value ops = .ok i) :
    ∃ r v cs, value cs = .ok v ∧ i = mk r v := by
  unfold parseRegister1 at h
  split at h
  · split at h <;> cases h
    exact ⟨_, _, _, ‹_›, rfl⟩
  · cases h

theorem parseMemoryForm_cases {mk : Reg → Reg → Word → Instr} (h : parseMemoryForm mk ops = .ok i) :
    ∃ r q v cs, parseImmediate checkImm12 cs = .ok v ∧ i = mk r q v := by
  unfold parseMemoryForm at h
  split at h
  · split at h <;> cases h
    exact ⟨_, _, _, _, ‹_›, rfl⟩
  · cases h

end

/-! ## Accepted programs -/

/-- An operand form makes well-formed instructions of the values its check lets through. -/
def OperandForm.Sound : OperandForm → Prop
  | .registers3 mk => ∀ rd rs1 rs2, (mk rd rs1 rs2).wellFormed = true
  | .immediate mk => ∀ r q v, fitsImm12 v = true → (mk r q v).wellFormed = true
  | .shift mk => ∀ r q v, fitsShamt v = true → (mk r q v).wellFormed = true
  | .memory mk => ∀ r q v, fitsImm12 v = true → (mk r q v).wellFormed = true
  | .upper mk => ∀ r v, fitsUpper v = true → (mk r v).wellFormed = true
  | .branch mk => ∀ r q v, fitsBranch v = true → (mk r q v).wellFormed = true
  | .jump mk => ∀ r v, fitsJump v = true → (mk r v).wellFormed = true

/-- Each of the 37 mnemonics has the form of its format. -/
theorem sound_of_mem_mnemonicForms : ∀ p ∈ mnemonicForms, p.2.Sound := by
  simp [mnemonicForms, OperandForm.Sound, Instr.wellFormed]

theorem mem_of_formOf {forms : List (String × OperandForm)} {cs : List Char} {f : OperandForm} (h : formOf forms cs = some f) :
    ∃ p ∈ forms, p.2 = f := by
  induction forms with
  | nil => cases h
  | cons p rest ih =>
    unfold formOf at h
    split at h
    · cases h
      exact ⟨p, List.mem_cons_self, rfl⟩
    · obtain ⟨q, hq, hqf⟩ := ih h
      exact ⟨q, List.mem_cons_of_mem _ hq, hqf⟩

theorem sound_of_formOf {cs : List Char} {f : OperandForm} (h : formOf mnemonicForms cs = some f) : f.Sound := by
  obtain ⟨p, hp, rfl⟩ := mem_of_formOf h
  exact sound_of_mem_mnemonicForms p hp

/-- An accepted instruction is well-formed: its operand parser, the check behind it, and the form of its mnemonic. -/
theorem wellFormed_of_assembleInstr {labels : Labels} {here : Word} {mnemonic : List Char} {ops : List Token} {i : Instr}
    (h : assembleInstr labels here mnemonic ops = .ok i) : i.wellFormed = true := by
  unfold assembleInstr at h
  split at h
  · cases h
  · next mk hform =>
    obtain ⟨rd, rs1, rs2, rfl⟩ := parseRegisters3_cases h
    exact sound_of_formOf hform rd rs1 rs2
  · next mk hform =>
    obtain ⟨r, q, v, cs, hv, rfl⟩ := parseRegisters2_cases h
    obtain ⟨n, hn⟩ := check_of_parseImmediate hv
    exact sound_of_formOf hform r q v (fitsImm12_of_checkImm12 hn)
  · next mk hform =>
    obtain ⟨r, q, v, cs, hv, rfl⟩ := parseRegisters2_cases h
    obtain ⟨n, hn⟩ := check_of_parseImmediate hv
    exact sound_of_formOf hform r q v (fitsShamt_of_checkShamt hn)
  · next mk hform =>
    obtain ⟨r, q, v, cs, hv, rfl⟩ := parseMemoryForm_cases h
    obtain ⟨n, hn⟩ := check_of_parseImmediate hv
    exact sound_of_formOf hform r q v (fitsImm12_of_checkImm12 hn)
  · next mk hform =>
    obtain ⟨r, v, cs, hv, rfl⟩ := parseRegister1_cases h
    obtain ⟨n, hn⟩ := check_of_parseImmediate hv
    exact sound_of_formOf hform r v (fitsUpper_of_checkUpper hn)
  · next mk hform =>
    obtain ⟨r, q, v, cs, hv, rfl⟩ := parseRegisters2_cases h
    obtain ⟨n, hn⟩ := check_of_parseTarget hv
    exact sound_of_formOf hform r q v (fitsBranch_of_checkBranch hn)
  · next mk hform =>
    obtain ⟨r, v, cs, hv, rfl⟩ := parseRegister1_cases h
    obtain ⟨n, hn⟩ := check_of_parseTarget hv
    exact sound_of_formOf hform r v (fitsJump_of_checkJump hn)

theorem wellFormed_of_assembleLines {labels : Labels} {here : Word} {xs : List SourceLine} {is : List Instr}
    (h : assembleLines labels here xs = .ok is) : ∀ i ∈ is, i.wellFormed = true := by
  induction xs generalizing here is with
  | nil =>
    cases h
    simp
  | cons x xs ih =>
    unfold assembleLines at h
    split at h <;> cases h
    next i js hi hjs => exact List.forall_mem_cons.2 ⟨wellFormed_of_assembleInstr hi, ih hjs⟩

theorem assembleLines_of_assemble {base : Word} {lines : List (List Char)} {is : List Instr} (h : assemble base lines = .ok is) :
    ∃ labels xs, assembleLines labels base xs = .ok is := by
  unfold assemble at h
  split at h
  · cases h
  · split at h
    · cases h
    · exact ⟨_, _, h⟩

/-- Settles O47, by induction on the lines. -/
theorem assembledInstructionsAreWellFormed : Obligations.AssembledInstructionsAreWellFormed := by
  intro base lines is h
  obtain ⟨labels, xs, hlines⟩ := assembleLines_of_assemble h
  exact wellFormed_of_assembleLines hlines

/-- Settles O52: the two texts are run through the assembler. -/
theorem sourceFragmentsAssemble : Obligations.SourceFragmentsAssemble := by
  unfold Obligations.SourceFragmentsAssemble
  exact ⟨by decide, by decide⟩

end Sys2Proof.Machine
end

section
/-! Type R (`40_r_type.md` R110 to R120): the encoding of format R as the statements give it, the register result every one of
these instructions ends with, and their values as integers or bit by bit. -/

namespace Sys2Proof.Machine

/-! ## Encoding -/

/-- The word of a well-formed instruction decodes to it, so only the mask is left to check (R85, R86). -/
theorem encodedAs_encode {i : Instr} {mask pattern : Word} (hwf : i.wellFormed = true) (hmask : encode i &&& mask = pattern) :
    EncodedAs (encode i) mask pattern i :=
  ⟨hmask, decodeOfEncodeIsIdentity i hwf⟩

/-- Format R (R72): the mask of its rows clears the three registers and keeps the other fields. -/
theorem encodedAs_of_formatR {i : Instr} {f7 : BitVec 7} {rs2 rs1 rd : Reg} {f3 : BitVec 3} {op : BitVec 7} {pattern : Word}
    (hwf : i.wellFormed = true) (hword : encode i = encodeR f7 rs2 rs1 f3 rd op)
    (hpattern : encodeR f7 0#5 0#5 f3 0#5 op = pattern) :
    EncodedAs (encodeR f7 rs2 rs1 f3 rd op) 0xfe00707f#32 pattern i := by
  rw [← hword]
  refine encodedAs_encode hwf ?_
  rw [hword, encodeR_mask, hpattern]

/-! ## The register result -/

/-- What `finishWith` answers, and its frame (R12, R21, R24). -/
theorem registerResult_setReg_advance (s : State) (rd : Reg) (v : Word) :
    RegisterResult s (s.setReg rd v).advance rd v where
  destination := by
    by_cases h0 : rd = 0#5
    · simp [h0]
    · simp [h0, State.reg_setReg_self s h0]
  otherRegisters := fun r hr => by simp [State.reg_setReg_other s hr]
  pc := by simp
  memory := by simp
  status := by simp
  platform := by simp

/-- An instruction that ends with `finishWith` completes in every state. -/
theorem computes_of_finishWith {i : Instr} {s : State} {rd : Reg} {u v : Word} (hexec : exec i s = finishWith s rd u)
    (hvalue : u = v) : Computes i s rd v := by
  subst hvalue
  exact ⟨_, hexec, registerResult_setReg_advance s rd u⟩

/-! ## Values -/

theorem add_eq_ofNat_mod (a b : Word) : a + b = BitVec.ofNat 32 ((a.toNat + b.toNat) % 2 ^ 32) := by
  apply BitVec.eq_of_toNat_eq
  simp

theorem sub_eq_ofInt (a b : Word) : a - b = BitVec.ofInt 32 ((a.toNat : Int) - b.toNat) := by
  rw [Int.sub_eq_add_neg, BitVec.ofInt_add, BitVec.ofInt_neg, BitVec.sub_eq_add_neg]
  simp

theorem truthValue_lessSigned (a b : Word) :
    truthValue (lessSigned a b) = if a.toInt < b.toInt then 1#32 else 0#32 := by
  simp only [truthValue, lessSigned_iff]

theorem truthValue_lessUnsigned (a b : Word) :
    truthValue (lessUnsigned a b) = if a.toNat < b.toNat then 1#32 else 0#32 := by
  simp only [truthValue, lessUnsigned_iff]

/-- The low five bits of a word are its remainder by 32 (R118 to R120). -/
theorem shiftAmount_eq_mod (v : Word) : shiftAmount v = v.toNat % 32 := by
  simp [shiftAmount, BitVec.extractLsb'_toNat]

theorem shiftLeft_eq_ofNat_mul (a : Word) (n : Nat) : a <<< n = BitVec.ofNat 32 (a.toNat * 2 ^ n) := by
  apply BitVec.eq_of_toNat_eq
  rw [BitVec.toNat_shiftLeft, BitVec.toNat_ofNat, Nat.shiftLeft_eq]

theorem ushiftRight_eq_ofNat_div (a : Word) (n : Nat) : a >>> n = BitVec.ofNat 32 (a.toNat / 2 ^ n) := by
  apply BitVec.eq_of_toNat_eq
  have hlt : a.toNat / 2 ^ n < 2 ^ 32 := (Nat.div_le_self _ _).trans_lt a.isLt
  rw [BitVec.toNat_ushiftRight, BitVec.toNat_ofNat, Nat.shiftRight_eq_div_pow, Nat.mod_eq_of_lt hlt]

/-- An arithmetic shift is a division that rounds down: Lean's `/` on `Int` rounds so for a positive divisor (R120). -/
theorem toInt_sshiftRight_eq_div (a : Word) (n : Nat) : (a.sshiftRight n).toInt = a.toInt / 2 ^ n := by
  rw [BitVec.toInt_sshiftRight, Int.shiftRight_eq_div_pow]
  simp

/-! ## The statements: for each instruction its encoding, then its result -/

/-- Settles O5. -/
theorem addAndSubtract : Obligations.AddAndSubtract := fun _ _ _ _ =>
  ⟨encodedAs_of_formatR rfl rfl (by decide), computes_of_finishWith rfl (add_eq_ofNat_mod _ _),
   encodedAs_of_formatR rfl rfl (by decide), computes_of_finishWith rfl (sub_eq_ofInt _ _)⟩

/-- Settles O6. -/
theorem setIfLess : Obligations.SetIfLess := fun _ _ _ _ =>
  ⟨encodedAs_of_formatR rfl rfl (by decide), computes_of_finishWith rfl (truthValue_lessSigned _ _),
   encodedAs_of_formatR rfl rfl (by decide), computes_of_finishWith rfl (truthValue_lessUnsigned _ _)⟩

/-- Settles O7: the results are the bitwise operations on words, whose bits the library gives. -/
theorem bitwiseLogic : Obligations.BitwiseLogic := fun _ _ _ _ =>
  ⟨encodedAs_of_formatR rfl rfl (by decide), ⟨_, fun _ _ => BitVec.getLsbD_and, computes_of_finishWith rfl rfl⟩,
   encodedAs_of_formatR rfl rfl (by decide), ⟨_, fun _ _ => BitVec.getLsbD_or, computes_of_finishWith rfl rfl⟩,
   encodedAs_of_formatR rfl rfl (by decide), ⟨_, fun _ _ => BitVec.getLsbD_xor, computes_of_finishWith rfl rfl⟩⟩

/-- Settles O8: each shift as arithmetic, by the amount `shiftAmount` reads. -/
theorem registerShifts : Obligations.RegisterShifts := by
  intro rd rs1 rs2 s
  simp only [← shiftAmount_eq_mod]
  exact
    ⟨encodedAs_of_formatR rfl rfl (by decide), computes_of_finishWith rfl (shiftLeft_eq_ofNat_mul _ _),
     encodedAs_of_formatR rfl rfl (by decide), computes_of_finishWith rfl (ushiftRight_eq_ofNat_div _ _),
     encodedAs_of_formatR rfl rfl (by decide), ⟨_, toInt_sshiftRight_eq_div _ _, computes_of_finishWith rfl rfl⟩⟩

end Sys2Proof.Machine
end

section
/-! Type I (`41_i_type.md` R130 to R145): the encodings of format I and of its shift sub-format, the values with a sign-extended
immediate or a constant shift amount, the loads, and the jump with link. -/

namespace Sys2Proof.Machine

/-! ## Encoding -/

/-- Format I keeps the 12 bits of the immediate field and no others of the assembled value (R73, R79). -/
theorem lowBits_signExtend (imm : BitVec 12) : (imm.signExtend 32).extractLsb' 0 12 = imm := by
  apply BitVec.eq_of_getLsbD_eq
  intro k hk
  have hk' : k < 32 := by omega
  simp only [BitVec.getLsbD_extractLsb', BitVec.getLsbD_signExtend, Nat.zero_add, hk, hk', decide_true, Bool.true_and, if_true]

/-- The shift sub-format keeps the five bits of the shift amount (R74, R80). -/
theorem lowBits_setWidth (shamt : BitVec 5) : (shamt.setWidth 32).extractLsb' 0 5 = shamt := by
  rw [BitVec.extractLsb'_setWidth_of_le (by decide), BitVec.extractLsb'_eq_self]

theorem toNat_setWidth_shamt (shamt : BitVec 5) : (shamt.setWidth 32).toNat = shamt.toNat :=
  BitVec.toNat_setWidth_of_le (by decide)

theorem fitsShamt_setWidth (shamt : BitVec 5) : fitsShamt (shamt.setWidth 32) = true := by
  rw [fitsShamt, toNat_setWidth_shamt]
  exact decide_eq_true shamt.isLt

/-- Format I (R73): the mask of its rows clears the immediate and the two registers. -/
theorem encodedAs_of_formatI {i : Instr} {imm : BitVec 12} {rs1 rd : Reg} {f3 : BitVec 3} {op : BitVec 7} {pattern : Word}
    (hwf : i.wellFormed = fitsImm12 (imm.signExtend 32)) (hword : encode i = encodeI (imm.signExtend 32) rs1 f3 rd op)
    (hpattern : encodeI 0#32 0#5 f3 0#5 op = pattern) :
    EncodedAs (imm ++ rs1 ++ f3 ++ rd ++ op) 0x0000707f#32 pattern i := by
  have hfields : encode i = imm ++ rs1 ++ f3 ++ rd ++ op := by rw [hword, encodeI, lowBits_signExtend]
  rw [← hfields]
  refine encodedAs_encode (hwf.trans (fitsImm12_signExtend imm)) ?_
  rw [hword, encodeI_mask, hpattern]

/-- The shift sub-format (R74) is format R with the shift amount in the place of `rs2`. -/
theorem encodedAs_of_formatShift {i : Instr} {f7 : BitVec 7} {shamt : BitVec 5} {rs1 rd : Reg} {f3 : BitVec 3} {op : BitVec 7}
    {pattern : Word} (hwf : i.wellFormed = fitsShamt (shamt.setWidth 32))
    (hword : encode i = encodeR f7 ((shamt.setWidth 32).extractLsb' 0 5) rs1 f3 rd op)
    (hpattern : encodeR f7 0#5 0#5 f3 0#5 op = pattern) :
    EncodedAs (encodeR f7 shamt rs1 f3 rd op) 0xfe00707f#32 pattern i :=
  encodedAs_of_formatR (hwf.trans (fitsShamt_setWidth shamt)) (by rw [hword, lowBits_setWidth]) hpattern

theorem decode_of_decodeGroup_none {w : Word} (h : decodeGroup w = none) : decode w = .error (.illegalInstruction w) := by
  rcases decode_cases w with ⟨i, hg, -⟩ | ⟨-, hd⟩
  · exact absurd (h.symm.trans hg) nofun
  · exact hd

/-- `slli` is the one instruction with its opcode and `funct3`, and its upper seven bits are zero (R86). -/
theorem decode_shiftLeft_of_upper {upper : BitVec 7} (h : upper ≠ 0b0000000#7) (shamt : BitVec 5) (rs1 rd : Reg) :
    decode (encodeR upper shamt rs1 0b001#3 rd 0b0010011#7) =
      .error (.illegalInstruction (encodeR upper shamt rs1 0b001#3 rd 0b0010011#7)) :=
  decode_of_decodeGroup_none (by simp [decodeGroup, decodeOpImm, h])

/-- `srli` and `srai` are the only instructions with their opcode and `funct3`, told apart by the upper seven bits (R86). -/
theorem decode_shiftRight_of_upper {upper : BitVec 7} (hl : upper ≠ 0b0000000#7) (ha : upper ≠ 0b0100000#7) (shamt : BitVec 5)
    (rs1 rd : Reg) :
    decode (encodeR upper shamt rs1 0b101#3 rd 0b0010011#7) =
      .error (.illegalInstruction (encodeR upper shamt rs1 0b101#3 rd 0b0010011#7)) :=
  decode_of_decodeGroup_none (by simp [decodeGroup, decodeOpImm, hl, ha])

/-! ## Values with the sign-extended immediate -/

theorem toInt_signExtend_imm (imm : BitVec 12) : (imm.signExtend 32).toInt = imm.toInt :=
  BitVec.toInt_signExtend_of_le (by decide)

/-- Read as unsigned, a sign-extended immediate is its signed value modulo 2^32 (R139). -/
theorem toNat_signExtend_imm (imm : BitVec 12) : ((imm.signExtend 32).toNat : Int) = imm.toInt % 2 ^ 32 := by
  rw [BitVec.signExtend, BitVec.toNat_ofInt, Int.toNat_of_nonneg (Int.emod_nonneg _ (by decide))]
  rfl

/-- The bits from 11 up are copies of the sign (R79). -/
theorem getLsbD_signExtend_imm (imm : BitVec 12) {k : Nat} (hk : k < 32) :
    (imm.signExtend 32).getLsbD k = imm.getLsbD (min k 11) := by
  rw [BitVec.getLsbD_signExtend, decide_eq_true hk, Bool.true_and]
  split
  · next hlow => rw [Nat.min_eq_left (by omega)]
  · next hhigh => rw [Nat.min_eq_right (by omega), BitVec.msb_eq_getLsbD_last]

theorem add_signExtend_eq_ofInt (v : Word) (imm : BitVec 12) : v + imm.signExtend 32 = BitVec.ofInt 32 (v.toInt + imm.toInt) := by
  rw [BitVec.ofInt_add, BitVec.ofInt_toInt, BitVec.signExtend]

theorem truthValue_lessSigned_imm (v : Word) (imm : BitVec 12) :
    truthValue (lessSigned v (imm.signExtend 32)) = if v.toInt < imm.toInt then 1#32 else 0#32 := by
  rw [truthValue_lessSigned, toInt_signExtend_imm]

theorem truthValue_lessUnsigned_imm (v : Word) (imm : BitVec 12) :
    truthValue (lessUnsigned v (imm.signExtend 32)) = if (v.toNat : Int) < imm.toInt % 2 ^ 32 then 1#32 else 0#32 := by
  rw [truthValue_lessUnsigned, ← toNat_signExtend_imm]
  simp only [Nat.cast_lt]

/-! ## Loads -/

/-- What a load does in each of its three cases, whatever its width and its extension (R42, R132 to R136). -/
theorem loadBehaviour_of_loadInto {i : Instr} {s : State} {rd : Reg} {w : Width} {ext : Word → Word} {a v : Word}
    (hexec : exec i s = loadInto s rd w ext a) (hvalue : ext (readLE s.mem a.toNat w) = v) :
    LoadBehaviour i s rd a w.bytes v := by
  rcases loadInto_cases s rd w ext a with ⟨hm, e⟩ | ⟨ha, hload, e⟩ | ⟨ha, hx, e⟩
  · exact ⟨fun ha => absurd ha hm, fun _ => hexec.trans e, fun ha => absurd ha hm⟩
  · exact ⟨fun _ _ => computes_of_finishWith (hexec.trans e) hvalue, fun hm => absurd ha hm, fun _ hx => absurd hload hx⟩
  · exact ⟨fun _ hload => absurd hload hx, fun hm => absurd ha hm, fun _ _ => hexec.trans e⟩

/-- Every address is aligned for a byte (R42). -/
theorem LoadBehaviour.byte {i : Instr} {s : State} {rd : Reg} {a v : Word} (h : LoadBehaviour i s rd a 1 v) :
    ByteLoadBehaviour i s rd a v := by
  obtain ⟨hvalue, -, hfault⟩ := h
  exact ⟨hvalue (Nat.mod_one _), hfault (Nat.mod_one _)⟩

theorem signExtendHalf_readLE (m : Memory) (a : Nat) :
    signExtendHalf (readLE m a .half) = (m.read (a + 1) ++ m.read a).signExtend 32 := by
  rw [signExtendHalf, readLE, BitVec.extractLsb'_setWidth_of_le (by decide), BitVec.extractLsb'_eq_self]

/-! ## Jumps with link (R131; `45_j_type.md` R191) -/

/-- What a jump leaves, and its frame. -/
theorem linkResult_setReg_setPc (s : State) (rd : Reg) (target : Word) :
    LinkResult s ((s.setReg rd (linkValue s)).setPc target) rd target where
  link := (registerResult_setReg_advance s rd (linkValue s)).destination
  otherRegisters := (registerResult_setReg_advance s rd (linkValue s)).otherRegisters
  pc := rfl
  memory := by simp
  status := by simp
  platform := by simp

/-- A jump with link in both of its cases, and the fetch after it. -/
theorem jumpBehaviour_of_transferTo {i : Instr} {s : State} {rd : Reg} {target : Word}
    (hexec : exec i s = transferTo s (s.setReg rd (linkValue s)) target) : JumpBehaviour i s rd target := by
  rcases transferTo_cases s (s.setReg rd (linkValue s)) target with ⟨hm, e⟩ | ⟨ha, e⟩
  · exact ⟨fun ha => absurd ha hm, fun _ => hexec.trans e⟩
  · have hlink := linkResult_setReg_setPc s rd target
    refine ⟨fun _ => ⟨_, hexec.trans e, hlink, fun hrun hend hx => ?_⟩, fun hm => absurd ha hm⟩
    obtain ⟨-, hfault, -⟩ := fetchChecksInOrder _ (hlink.status.trans hrun) (hlink.platform ▸ hend)
    exact hfault ha fun hx' => hx (hx'.of_platform_eq hlink.platform.symm)

/-- Clearing bit 0 rounds down to an even number (R131). -/
theorem clearBit0_eq_ofNat (v : Word) : v &&& ~~~1#32 = BitVec.ofNat 32 (v.toNat / 2 * 2) := by
  have hshift : v &&& ~~~1#32 = (v >>> 1) <<< 1 := by
    apply BitVec.eq_of_getLsbD_eq
    intro k hk
    interval_cases k <;> simp
  rw [hshift, shiftLeft_eq_ofNat_mul, BitVec.toNat_ushiftRight, Nat.shiftRight_eq_div_pow, Nat.pow_one]

/-! ## The statements: for each instruction its encoding, then what it does -/

/-- Settles O9. -/
theorem addImmediate : Obligations.AddImmediate := fun _ _ _ _ =>
  ⟨encodedAs_of_formatI rfl rfl (by decide), computes_of_finishWith rfl (add_signExtend_eq_ofInt _ _)⟩

/-- Settles O10. -/
theorem setIfLessImmediate : Obligations.SetIfLessImmediate := fun _ _ _ _ =>
  ⟨encodedAs_of_formatI rfl rfl (by decide), computes_of_finishWith rfl (truthValue_lessSigned_imm _ _),
   encodedAs_of_formatI rfl rfl (by decide), computes_of_finishWith rfl (truthValue_lessUnsigned_imm _ _)⟩

/-- Settles O11: the bits of the bitwise operations, those of the immediate by `getLsbD_signExtend_imm`. -/
theorem bitwiseLogicImmediate : Obligations.BitwiseLogicImmediate := fun _ _ imm _ =>
  ⟨encodedAs_of_formatI rfl rfl (by decide),
   ⟨_, fun _ hk => by rw [← getLsbD_signExtend_imm imm hk, BitVec.getLsbD_and], computes_of_finishWith rfl rfl⟩,
   encodedAs_of_formatI rfl rfl (by decide),
   ⟨_, fun _ hk => by rw [← getLsbD_signExtend_imm imm hk, BitVec.getLsbD_or], computes_of_finishWith rfl rfl⟩,
   encodedAs_of_formatI rfl rfl (by decide),
   ⟨_, fun _ hk => by rw [← getLsbD_signExtend_imm imm hk, BitVec.getLsbD_xor], computes_of_finishWith rfl rfl⟩⟩

/-- Settles O12: each shift as arithmetic, and the words whose upper seven bits select no shift. -/
theorem constantShifts : Obligations.ConstantShifts := by
  intro rd rs1 shamt s
  rw [← toNat_setWidth_shamt]
  exact
    ⟨encodedAs_of_formatShift rfl rfl (by decide), computes_of_finishWith rfl (shiftLeft_eq_ofNat_mul _ _),
     encodedAs_of_formatShift rfl rfl (by decide), computes_of_finishWith rfl (ushiftRight_eq_ofNat_div _ _),
     encodedAs_of_formatShift rfl rfl (by decide), ⟨_, toInt_sshiftRight_eq_div _ _, computes_of_finishWith rfl rfl⟩,
     fun _ h _ hw => hw ▸ decode_shiftLeft_of_upper h shamt rs1 rd,
     fun _ hl ha _ hw => hw ▸ decode_shiftRight_of_upper hl ha shamt rs1 rd⟩

/-- Settles O13. -/
theorem loadWord : Obligations.LoadWord := by
  rintro rd rs1 imm s a rfl
  exact ⟨encodedAs_of_formatI rfl rfl (by decide), loadBehaviour_of_loadInto (w := .word) rfl (readLE_word_eq_wordAt _ _)⟩

/-- Settles O14. -/
theorem loadHalfWord : Obligations.LoadHalfWord := by
  rintro rd rs1 imm s a rfl
  rw [BitVec.ofNat_toNat]
  exact
    ⟨encodedAs_of_formatI rfl rfl (by decide), loadBehaviour_of_loadInto (w := .half) rfl (signExtendHalf_readLE _ _),
     encodedAs_of_formatI rfl rfl (by decide), loadBehaviour_of_loadInto (w := .half) rfl (zeroExtendHalf_readLE _ _)⟩

/-- Settles O15: a byte is loaded as any width is, at an address that is always aligned. -/
theorem loadByte : Obligations.LoadByte := by
  rintro rd rs1 imm s a rfl
  rw [BitVec.ofNat_toNat]
  exact
    ⟨encodedAs_of_formatI rfl rfl (by decide),
     (loadBehaviour_of_loadInto (w := .byte) rfl (signExtendByte_readLE _ _)).byte,
     encodedAs_of_formatI rfl rfl (by decide),
     (loadBehaviour_of_loadInto (w := .byte) rfl (zeroExtendByte_readLE _ _)).byte⟩

/-- Settles O24: the target is computed from the state before the link is written. -/
theorem jumpAndLinkRegister : Obligations.JumpAndLinkRegister := by
  intro rd rs1 imm s
  rw [← clearBit0_eq_ofNat]
  exact ⟨encodedAs_of_formatI rfl rfl (by decide), jumpBehaviour_of_transferTo rfl⟩

end Sys2Proof.Machine
end

section
/-! Type S (`42_s_type.md` R160 to R163): the encoding of format S with the displacement in its two pieces, and what a store does,
for any width. -/

namespace Sys2Proof.Machine

/-! ## Encoding -/

/-- Format S reads the displacement field of the assembled value and none of its copies of the sign (R75, R81). -/
theorem extractLsb'_signExtend_imm (imm : BitVec 12) {start len : Nat} (h : start + len ≤ 12) :
    (imm.signExtend 32).extractLsb' start len = imm.extractLsb' start len := by
  apply BitVec.eq_of_getLsbD_eq
  intro k hk
  have hfield : start + k < 12 := by omega
  have hword : start + k < 32 := by omega
  simp only [BitVec.getLsbD_extractLsb', BitVec.getLsbD_signExtend, hfield, hword, decide_true, Bool.true_and, if_true]

/-- The fields of the word are the two pieces of the displacement in their places (R75). -/
theorem encodeS_signExtend_append (hi : BitVec 7) (lo : BitVec 5) (rs2 rs1 : Reg) (f3 : BitVec 3) (op : BitVec 7) :
    encodeS ((hi ++ lo : BitVec 12).signExtend 32) rs2 rs1 f3 op = hi ++ rs2 ++ rs1 ++ f3 ++ lo ++ op := by
  rw [encodeS, extractLsb'_signExtend_imm _ (by decide), extractLsb'_signExtend_imm _ (by decide),
    BitVec.extractLsb'_append_eq_left, BitVec.extractLsb'_append_eq_right]

/-- Format S (R75): the mask of its rows clears the displacement and the two registers. -/
theorem encodedAs_of_formatS {i : Instr} {hi : BitVec 7} {lo : BitVec 5} {rs2 rs1 : Reg} {f3 : BitVec 3} {op : BitVec 7}
    {pattern : Word} (hwf : i.wellFormed = fitsImm12 ((hi ++ lo : BitVec 12).signExtend 32))
    (hword : encode i = encodeS ((hi ++ lo : BitVec 12).signExtend 32) rs2 rs1 f3 op)
    (hpattern : encodeS 0#32 0#5 0#5 f3 op = pattern) :
    EncodedAs (hi ++ rs2 ++ rs1 ++ f3 ++ lo ++ op) 0x0000707f#32 pattern i := by
  rw [← encodeS_signExtend_append, ← hword]
  refine encodedAs_encode (hwf.trans (fitsImm12_signExtend _)) ?_
  rw [hword, encodeS_mask, hpattern]

/-! ## Stores -/

/-- What a completed store leaves, and its frame (R42, R160). -/
theorem storeResult_writeLE (s : State) (a n : Nat) (v : Word) :
    StoreResult s { s with mem := writeLE s.mem a v n, pc := s.pc + 4#32 } a n v where
  stored := fun _ hk => read_writeLE_inside s.mem a v hk
  otherBytes := fun _ hx => read_writeLE_outside s.mem v hx
  registers := State.reg_congr rfl
  pc := rfl
  status := rfl
  platform := rfl

/-- What a store does in each of its three cases, whatever its width (R42, R161 to R163). -/
theorem storeBehaviour_of_storeAt {i : Instr} {s : State} {w : Width} {a v : Word} (hexec : exec i s = storeAt s w a v) :
    StoreBehaviour i s a w.bytes v := by
  rcases storeAt_cases s w a v with ⟨hm, e⟩ | ⟨ha, hstore, e⟩ | ⟨ha, hx, e⟩
  · exact ⟨fun ha => absurd ha hm, fun _ => hexec.trans e, fun ha => absurd ha hm⟩
  · exact ⟨fun _ _ => ⟨_, hexec.trans e, storeResult_writeLE s a.toNat w.bytes v⟩, fun hm => absurd ha hm,
      fun _ hx => absurd hstore hx⟩
  · exact ⟨fun _ hstore => absurd hstore hx, fun hm => absurd ha hm, fun _ _ => hexec.trans e⟩

/-- Every address is aligned for a byte (R42). -/
theorem StoreBehaviour.byte {i : Instr} {s : State} {a v : Word} (h : StoreBehaviour i s a 1 v) : ByteStoreBehaviour i s a v := by
  obtain ⟨hstored, -, hfault⟩ := h
  exact ⟨hstored (Nat.mod_one _), hfault (Nat.mod_one _)⟩

/-! ## The statements: for each instruction its encoding, then what it does -/

/-- Settles O16. -/
theorem storeWord : Obligations.StoreWord := by
  rintro rs2 rs1 hi lo s imm rfl
  exact ⟨encodedAs_of_formatS rfl rfl (by decide), storeBehaviour_of_storeAt (w := .word) rfl⟩

/-- Settles O17. -/
theorem storeHalfWord : Obligations.StoreHalfWord := by
  rintro rs2 rs1 hi lo s imm rfl
  exact ⟨encodedAs_of_formatS rfl rfl (by decide), storeBehaviour_of_storeAt (w := .half) rfl⟩

/-- Settles O18: a byte is stored as any width is, at an address that is always aligned. -/
theorem storeByte : Obligations.StoreByte := by
  rintro rs2 rs1 hi lo s imm rfl
  exact ⟨encodedAs_of_formatS rfl rfl (by decide), (storeBehaviour_of_storeAt (w := .byte) rfl).byte⟩

end Sys2Proof.Machine
end

section
/-! Type U (`43_u_type.md` R170 to R172): the value of the 20-bit field over twelve zeros, the encoding of format U, and the two
sums. -/

namespace Sys2Proof.Machine

/-! ## The immediate -/

/-- Twelve zeros below the field multiply it by 4096, without overflow (R83). -/
theorem toNat_append_upper (uimm : BitVec 20) : (uimm ++ 0#12 : Word).toNat = uimm.toNat * 4096 := by
  rw [BitVec.toNat_append, Nat.shiftLeft_eq, BitVec.toNat_zero, Nat.or_zero]

theorem fitsUpper_append (uimm : BitVec 20) : fitsUpper (uimm ++ 0#12) = true := by
  rw [fitsUpper, toNat_append_upper]
  exact decide_eq_true (Nat.mul_mod_left _ _)

/-! ## Encoding -/

/-- Format U keeps the twenty bits of the field and leaves out the zeros (R77). -/
theorem encodeU_append (uimm : BitVec 20) (rd : Reg) (op : BitVec 7) : encodeU (uimm ++ 0#12) rd op = uimm ++ rd ++ op := by
  rw [encodeU, BitVec.extractLsb'_append_eq_left]

/-- Format U (R77): the mask of its rows keeps the opcode alone. -/
theorem encodedAs_of_formatU {i : Instr} {uimm : BitVec 20} {rd : Reg} {op : BitVec 7} {pattern : Word}
    (hwf : i.wellFormed = fitsUpper (uimm ++ 0#12)) (hword : encode i = encodeU (uimm ++ 0#12) rd op)
    (hpattern : encodeU 0#32 0#5 op = pattern) :
    EncodedAs (uimm ++ rd ++ op) 0x0000007f#32 pattern i := by
  rw [← encodeU_append, ← hword]
  refine encodedAs_encode (hwf.trans (fitsUpper_append uimm)) ?_
  rw [hword, encodeU_mask, hpattern]

/-! ## Values -/

/-- The result of `lui` (R171). -/
theorem append_upper_eq_ofNat (uimm : BitVec 20) : (uimm ++ 0#12 : Word) = BitVec.ofNat 32 (uimm.toNat * 4096) := by
  rw [← toNat_append_upper, BitVec.ofNat_toNat, BitVec.setWidth_eq]

/-- The result of `auipc` (R172). -/
theorem add_append_upper_eq_ofNat (pc : Word) (uimm : BitVec 20) :
    pc + (uimm ++ 0#12) = BitVec.ofNat 32 ((pc.toNat + uimm.toNat * 4096) % 2 ^ 32) := by
  rw [add_eq_ofNat_mod, toNat_append_upper]

/-! ## The statement: for each instruction its encoding, then its result -/

/-- Settles O19: `auipc` reads the program counter before it advances. -/
theorem upperImmediates : Obligations.UpperImmediates := fun _ _ _ =>
  ⟨encodedAs_of_formatU rfl rfl (by decide), computes_of_finishWith rfl (append_upper_eq_ofNat _),
   encodedAs_of_formatU rfl rfl (by decide), computes_of_finishWith rfl (add_append_upper_eq_ofNat _ _)⟩

end Sys2Proof.Machine
end

section
/-! Type B (`44_b_type.md` R180 to R186): the encoding of format B with the offset in its four pieces, the conditions on bits and on
integers, and what a branch does, for any condition. -/

namespace Sys2Proof.Machine

/-! ## Encoding -/

section
variable (i12 : BitVec 1) (i10_5 : BitVec 6) (rs2 rs1 : Reg) (f3 : BitVec 3) (i4_1 : BitVec 4) (i11 : BitVec 1)

/-- The decoder reads the pieces of the offset back from their places (R76, R82). -/
theorem immB_branchWord : immB (branchWord i12 i10_5 rs2 rs1 f3 i4_1 i11) = branchImm i12 i10_5 i4_1 i11 := by
  rw [immB, branchImm]
  congr 1
  apply BitVec.eq_of_getLsbD_eq
  intro k hk
  simp only [branchWord, BitVec.getLsbD_append, BitVec.getLsbD_extractLsb']
  interval_cases k <;> simp

/-- The encoder puts the pieces of the offset in their places and leaves out its low zero (R76). -/
theorem encodeB_branchImm :
    encodeB (branchImm i12 i10_5 i4_1 i11) rs2 rs1 f3 0b1100011#7 = branchWord i12 i10_5 rs2 rs1 f3 i4_1 i11 := by
  apply BitVec.eq_of_getLsbD_eq
  intro k hk
  simp only [encodeB, branchImm, branchWord, BitVec.getLsbD_append, BitVec.getLsbD_extractLsb', BitVec.getLsbD_signExtend]
  interval_cases k <;> simp

end

/-- Format B (R76): the mask of its rows clears the offset and the two registers. -/
theorem encodedAs_of_formatB {i : Instr} {i12 : BitVec 1} {i10_5 : BitVec 6} {rs2 rs1 : Reg} {f3 : BitVec 3} {i4_1 : BitVec 4}
    {i11 : BitVec 1} {pattern : Word} (hwf : i.wellFormed = fitsBranch (branchImm i12 i10_5 i4_1 i11))
    (hword : encode i = encodeB (branchImm i12 i10_5 i4_1 i11) rs2 rs1 f3 0b1100011#7)
    (hpattern : encodeB 0#32 0#5 0#5 f3 0b1100011#7 = pattern) :
    EncodedAs (branchWord i12 i10_5 rs2 rs1 f3 i4_1 i11) 0x0000707f#32 pattern i := by
  have hfits : fitsBranch (branchImm i12 i10_5 i4_1 i11) = true := by
    rw [← immB_branchWord i12 i10_5 rs2 rs1 f3 i4_1 i11]
    exact fitsBranch_immB _
  rw [← encodeB_branchImm, ← hword]
  refine encodedAs_encode (hwf.trans hfits) ?_
  rw [hword, encodeB_mask, hpattern]

/-! ## Conditions (R181 to R186) -/

theorem equalWords_iff_bits (a b : Word) : equalWords a b = true ↔ ∀ k < 32, a.getLsbD k = b.getLsbD k := by
  rw [equalWords_iff]
  exact ⟨fun h _ _ => h ▸ rfl, fun h => BitVec.eq_of_getLsbD_eq h⟩

theorem not_equalWords_iff_bit (a b : Word) : (!equalWords a b) = true ↔ ∃ k < 32, a.getLsbD k ≠ b.getLsbD k := by
  rw [Bool.not_eq_true', ← Bool.not_eq_true, equalWords_iff_bits]
  push Not
  rfl

theorem not_lessSigned_iff (a b : Word) : (!lessSigned a b) = true ↔ b.toInt ≤ a.toInt := by
  rw [Bool.not_eq_true', ← Bool.not_eq_true, lessSigned_iff, Int.not_lt]

theorem not_lessUnsigned_iff (a b : Word) : (!lessUnsigned a b) = true ↔ b.toNat ≤ a.toNat := by
  rw [Bool.not_eq_true', ← Bool.not_eq_true, lessUnsigned_iff, Nat.not_lt]

/-! ## Branches -/

theorem pcResult_setPc (s : State) (target : Word) : PcResult s (s.setPc target) target where
  pc := rfl
  registers := State.reg_setPc s target
  memory := fun _ => rfl
  status := rfl
  platform := rfl

/-- What a branch does in each of its three cases, whatever its condition (R180). -/
theorem branchBehaviour_of_branchIf {i : Instr} {s : State} {c : Bool} {taken : Prop} {imm : Word}
    (hexec : exec i s = branchIf s c imm) (hcond : c = true ↔ taken) : BranchBehaviour i s taken imm := by
  rcases branchIf_cases s c imm with ⟨hc, e⟩ | ⟨hc, hm, e⟩ | ⟨hc, ha, e⟩
  · have hnot : ¬ taken := by simp [← hcond, hc]
    exact ⟨fun _ => ⟨_, hexec.trans e, pcResult_setPc s _⟩, fun h => absurd h hnot, fun h => absurd h hnot⟩
  · have htaken : taken := hcond.1 hc
    exact ⟨fun h => absurd htaken h, fun _ ha => absurd ha hm, fun _ _ => hexec.trans e⟩
  · have htaken : taken := hcond.1 hc
    exact ⟨fun h => absurd htaken h, fun _ _ => ⟨_, hexec.trans e, pcResult_setPc s _⟩, fun _ hm => absurd ha hm⟩

/-! ## The statements: for each instruction its encoding, then what it does -/

/-- Settles O20. -/
theorem equalityBranches : Obligations.EqualityBranches := fun _ _ _ _ _ _ _ =>
  ⟨encodedAs_of_formatB rfl rfl (by decide), branchBehaviour_of_branchIf rfl (equalWords_iff_bits _ _),
   encodedAs_of_formatB rfl rfl (by decide), branchBehaviour_of_branchIf rfl (not_equalWords_iff_bit _ _)⟩

/-- Settles O21. -/
theorem signedBranches : Obligations.SignedBranches := fun _ _ _ _ _ _ _ =>
  ⟨encodedAs_of_formatB rfl rfl (by decide), branchBehaviour_of_branchIf rfl (lessSigned_iff _ _),
   encodedAs_of_formatB rfl rfl (by decide), branchBehaviour_of_branchIf rfl (not_lessSigned_iff _ _)⟩

/-- Settles O22. -/
theorem unsignedBranches : Obligations.UnsignedBranches := fun _ _ _ _ _ _ _ =>
  ⟨encodedAs_of_formatB rfl rfl (by decide), branchBehaviour_of_branchIf rfl (lessUnsigned_iff _ _),
   encodedAs_of_formatB rfl rfl (by decide), branchBehaviour_of_branchIf rfl (not_lessUnsigned_iff _ _)⟩

end Sys2Proof.Machine
end

section
/-! Type J (`45_j_type.md` R190, R191): the encoding of format J with the offset in its four pieces, and the target relative to the
instruction's own address. What a jump with link does stands with type I. -/

namespace Sys2Proof.Machine

/-! ## Encoding -/

/-- The word of a `jal` with the pieces of a J-immediate in their places (R78). -/
def jumpWord (i20 : BitVec 1) (i10_1 : BitVec 10) (i11 : BitVec 1) (i19_12 : BitVec 8) (rd : Reg) : Word :=
  i20 ++ i10_1 ++ i11 ++ i19_12 ++ rd ++ 0b1101111#7

/-- The J-immediate those pieces make (R84). -/
def jumpImm (i20 : BitVec 1) (i10_1 : BitVec 10) (i11 : BitVec 1) (i19_12 : BitVec 8) : Word :=
  (i20 ++ i19_12 ++ i11 ++ i10_1 ++ 0#1 : BitVec 21).signExtend 32

section
variable (i20 : BitVec 1) (i10_1 : BitVec 10) (i11 : BitVec 1) (i19_12 : BitVec 8) (rd : Reg)

theorem opcodeField_jumpWord : opcodeField (jumpWord i20 i10_1 i11 i19_12 rd) = 0b1101111#7 := by
  rw [opcodeField, jumpWord, BitVec.extractLsb'_append_eq_right]

theorem rdField_jumpWord : rdField (jumpWord i20 i10_1 i11 i19_12 rd) = rd := by
  apply BitVec.eq_of_getLsbD_eq
  intro k hk
  simp only [rdField, jumpWord, BitVec.getLsbD_append, BitVec.getLsbD_extractLsb']
  interval_cases k <;> simp

/-- The decoder reads the pieces of the offset back from their places (R78, R84). -/
theorem immJ_jumpWord : immJ (jumpWord i20 i10_1 i11 i19_12 rd) = jumpImm i20 i10_1 i11 i19_12 := by
  rw [immJ, jumpImm]
  congr 1
  apply BitVec.eq_of_getLsbD_eq
  intro k hk
  simp only [jumpWord, BitVec.getLsbD_append, BitVec.getLsbD_extractLsb']
  interval_cases k <;> simp

/-- The encoder puts the pieces back where the decoder found them (R78). -/
theorem encodeJ_jumpImm : encodeJ (jumpImm i20 i10_1 i11 i19_12) rd 0b1101111#7 = jumpWord i20 i10_1 i11 i19_12 rd := by
  have hfields := encodeJ_fields (opcodeField_jumpWord i20 i10_1 i11 i19_12 rd)
  rwa [immJ_jumpWord, rdField_jumpWord] at hfields

/-- Whatever its pieces, a J-immediate is in range (R91). -/
theorem fitsJump_jumpImm : fitsJump (jumpImm i20 i10_1 i11 i19_12) = true := by
  rw [← immJ_jumpWord i20 i10_1 i11 i19_12 0#5]
  exact fitsJump_immJ _

/-- Format J (R78): the mask of its row keeps the opcode alone. -/
theorem encodedAs_jal :
    EncodedAs (jumpWord i20 i10_1 i11 i19_12 rd) 0x0000007f#32 0x0000006f#32 (.jal rd (jumpImm i20 i10_1 i11 i19_12)) := by
  have hpattern : encodeJ 0#32 0#5 0b1101111#7 = 0x0000006f#32 := by decide
  have hmask := encodeJ_mask (jumpImm i20 i10_1 i11 i19_12) rd 0b1101111#7
  have hwf : (Instr.jal rd (jumpImm i20 i10_1 i11 i19_12)).wellFormed = true := fitsJump_jumpImm i20 i10_1 i11 i19_12
  rw [← encodeJ_jumpImm]
  exact encodedAs_encode hwf (hmask.trans hpattern)

end

/-! ## The target -/

/-- A signed offset is added to an unsigned address modulo 2^32 (R191). -/
theorem add_eq_ofInt (pc imm : Word) : pc + imm = BitVec.ofInt 32 (pc.toNat + imm.toInt) := by
  rw [BitVec.ofInt_add, BitVec.ofInt_natCast, BitVec.ofNat_toNat, BitVec.setWidth_eq, BitVec.ofInt_toInt]

/-! ## The statement: the encoding, then what it does -/

/-- Settles O23: the target is the sum the model computes, and the jump is that of `jumpBehaviour_of_transferTo`. -/
theorem jumpAndLink : Obligations.JumpAndLink := by
  rintro rd i20 i10_1 i11 i19_12 s imm rfl
  rw [← add_eq_ofInt]
  exact ⟨encodedAs_jal i20 i10_1 i11 i19_12 rd, jumpBehaviour_of_transferTo rfl⟩

end Sys2Proof.Machine
end

section
/-! The state after reset as a launch (`70_reset_and_hazards.md` R240), at the parameter values of `Config.lean`. -/

namespace Sys2Proof.Machine

/-- The parameter values `State.reset` is built from, with an empty `INIT_MEM` (log entries 2, 3, 4, 6). -/
def resetParams : LaunchParams where
  resetPc := Config.resetPc
  endPc := Config.endPc
  memMap := Config.memMap
  initMem := []
  initRegs := Config.initRegs

/-- Field by field; an empty `INIT_MEM` lists nothing in memory (log entry 7). -/
theorem startState_resetParams : startState resetParams = State.reset := rfl

theorem launch_resetParams : launch resetParams = some State.reset :=
  launch_eq_some_iff.2 ⟨⟨resetIsLegal.pcAligned, resetIsLegal.endAligned⟩, startState_resetParams⟩

/-- Settles O41: the values written out are those of `Config.lean`, which R240 does not refuse since the state after reset is legal. -/
theorem resetIsALaunch : Obligations.ResetIsALaunch := launch_resetParams

end Sys2Proof.Machine
end

section
/-! The worked encodings of the source (`95_test_vectors.md` S1 to S7): each word is what the encoder makes of the instruction it stands
for, so the round trip and the opcode map say what the decoder answers. -/

namespace Sys2Proof.Machine

/-- The round trip read from the word's side. -/
theorem decode_of_encode_eq {w : Word} {i : Instr} (hwf : i.wellFormed = true) (hencode : encode i = w) : decode w = .ok i :=
  hencode ▸ decodeOfEncodeIsIdentity i hwf

/-- The source's `lui t0, 0x12345` has the opcode of group OP, whose rows exclude `funct7 = 0001001` (`90_conflicts.md` C1). -/
theorem misprintedLui_matches_no_row : ∀ row ∈ opcodeTable, 0x123452b3#32 &&& row.mask ≠ row.pattern := by decide

/-- Settles O4: seven words are encodings of well-formed instructions, the misprinted one matches no row. -/
theorem workedExamplesDecode : Obligations.WorkedExamplesDecode := by
  obtain ⟨-, -, illegal_of_no_row, -⟩ := decodeAgreesWithOpcodeTable
  refine ⟨?sub, ?slti, ?lw, ?sb, ?lui, ?blt, ?jal, illegal_of_no_row _ misprintedLui_matches_no_row⟩
  all_goals exact decode_of_encode_eq (by decide) (by decide)

end Sys2Proof.Machine
end
